-- ==== Sys2Proof/Word.lean ====
section
/-! DEFINITION. The machine words of the block: a byte and a 96-bit command word (spec R8, R80). -/

namespace Sys2Proof

/-- A byte is 8 bits (R8). -/
abbrev Byte := BitVec 8

/-- A command word is one 96-bit number `opc | a8 << 8 | a16 << 16 | d64 << 32` (R80). -/
abbrev CmdWord := BitVec 96

end Sys2Proof
end

