-- ==== Sys2Proof/Syntax.lean ====
section
/-! DEFINITION. The command interface as syntax: the eleven commands of R81 with their operands
(R83), their opcodes, the four ports (R206) and the causes of an illegal word (R202). -/

namespace Sys2Proof

/-- The four command ports (R206). -/
inductive Port where
  | link
  | core
  | tick
  | host
deriving DecidableEq, Repr

/-- Why a command word is illegal (R84, R192, R202). -/
inductive IllegalCause where
  /-- `BAD_OPCODE`: `opc` is not in R81. -/
  | badOpcode
  /-- `RESERVED_NONZERO`: a legal `opc` with a nonzero reserved bit. -/
  | reservedNonzero
  /-- `SLOT_RANGE`: a `TMR_CONFIG` with `slot >= NT`. -/
  | slotRange
deriving DecidableEq, Repr

/-- The eleven opcodes of R81, by name. -/
inductive Opcode where
  | nop
  | rxByte
  | rxStep
  | rxError
  | txSend
  | idDecode
  | fxLoad
  | fxTake
  | tmrConfig
  | tmrKick
  | tmrTick
deriving DecidableEq, Repr

/-- The commands of R81, one constructor per row of the opcode table, with the operands of R83. -/
inductive Instr where
  /-- `NOP` (R190). -/
  | nop
  /-- `RX_BYTE b` (R110). -/
  | rxByte (b : BitVec 8)
  /-- `RX_STEP` (R112). -/
  | rxStep
  /-- `RX_ERROR` (R119). -/
  | rxError
  /-- `TX_SEND len, data` (R140). -/
  | txSend (len : BitVec 8) (data : BitVec 64)
  /-- `ID_DECODE id` (R151). -/
  | idDecode (id : BitVec 32)
  /-- `FX_LOAD data` (R155). -/
  | fxLoad (data : BitVec 64)
  /-- `FX_TAKE len` (R156). -/
  | fxTake (len : BitVec 8)
  /-- `TMR_CONFIG slot, node, fidx, tmo` (R172); `tmo` is read as signed. -/
  | tmrConfig (slot : BitVec 8) (node : BitVec 7) (fidx : BitVec 8) (tmo : BitVec 32)
  /-- `TMR_KICK node, fidx` (R175). -/
  | tmrKick (node : BitVec 7) (fidx : BitVec 8)
  /-- `TMR_TICK` (R178). -/
  | tmrTick
deriving DecidableEq, Repr

/-- The opcode of a command. -/
def Instr.opcode : Instr → Opcode
  | .nop => .nop
  | .rxByte _ => .rxByte
  | .rxStep => .rxStep
  | .rxError => .rxError
  | .txSend _ _ => .txSend
  | .idDecode _ => .idDecode
  | .fxLoad _ => .fxLoad
  | .fxTake _ => .fxTake
  | .tmrConfig _ _ _ _ => .tmrConfig
  | .tmrKick _ _ => .tmrKick
  | .tmrTick => .tmrTick

end Sys2Proof
end

