-- ==== Sys2Proof/Decode.lean ====
section
/-! DEFINITION. Decoding a 96-bit command word (R80 to R86, R191) and, after it, encoding. -/

namespace Sys2Proof

/-! ### Fields of a command word (R80) -/

/-- `opc = cmd[7:0]`. -/
def cmdOpc (w : CmdWord) : BitVec 8 := w.extractLsb' 0 8
/-- `a8 = cmd[15:8]`. -/
def cmdA8 (w : CmdWord) : BitVec 8 := w.extractLsb' 8 8
/-- `a16[6:0] = cmd[22:16]`, the nodeId of a key operand. -/
def cmdNode (w : CmdWord) : BitVec 7 := w.extractLsb' 16 7
/-- `a16[15:8] = cmd[31:24]`, the frame index of a key operand. -/
def cmdFidx (w : CmdWord) : BitVec 8 := w.extractLsb' 24 8
/-- `d64 = cmd[95:32]`. -/
def cmdD64 (w : CmdWord) : BitVec 64 := w.extractLsb' 32 64
/-- `d64[31:0] = cmd[63:32]`. -/
def cmdD32 (w : CmdWord) : BitVec 32 := w.extractLsb' 32 32

/-! ### Opcode map (R81) and masks (R82) -/

/-- The opcode values of R81. -/
def Opcode.toByte : Opcode → BitVec 8
  | .nop => 0x00#8
  | .rxByte => 0x01#8
  | .rxStep => 0x02#8
  | .rxError => 0x03#8
  | .txSend => 0x10#8
  | .idDecode => 0x20#8
  | .fxLoad => 0x21#8
  | .fxTake => 0x22#8
  | .tmrConfig => 0x30#8
  | .tmrKick => 0x31#8
  | .tmrTick => 0x32#8

/-- The opcode a byte names; the remaining 245 values name none (R81). -/
def opcodeOfByte (b : BitVec 8) : Option Opcode :=
  match b.toNat with
  | 0x00 => some .nop
  | 0x01 => some .rxByte
  | 0x02 => some .rxStep
  | 0x03 => some .rxError
  | 0x10 => some .txSend
  | 0x20 => some .idDecode
  | 0x21 => some .fxLoad
  | 0x22 => some .fxTake
  | 0x30 => some .tmrConfig
  | 0x31 => some .tmrKick
  | 0x32 => some .tmrTick
  | _ => none

/-- The masks of R82: a 1 in bits 7:0 and in every reserved bit of R81. -/
def Opcode.mask : Opcode → CmdWord
  | .nop => 0xFFFFFFFFFFFFFFFFFFFFFFFF#96
  | .rxByte => 0xFFFFFFFFFFFFFFFFFFFF00FF#96
  | .rxStep => 0xFFFFFFFFFFFFFFFFFFFFFFFF#96
  | .rxError => 0xFFFFFFFFFFFFFFFFFFFFFFFF#96
  | .txSend => 0x0000000000000000FFFF00FF#96
  | .idDecode => 0xFFFFFFFF00000000FFFFFFFF#96
  | .fxLoad => 0x0000000000000000FFFFFFFF#96
  | .fxTake => 0xFFFFFFFFFFFFFFFFFFFF00FF#96
  | .tmrConfig => 0xFFFFFFFF00000000008000FF#96
  | .tmrKick => 0xFFFFFFFFFFFFFFFF0080FFFF#96
  | .tmrTick => 0xFFFFFFFFFFFFFFFFFFFFFFFF#96

/-- The `match` word of R82, which is the opcode alone. -/
def Opcode.matchWord (op : Opcode) : CmdWord := op.toByte.setWidth 96

/-! ### Decoding -/

/-- Operand assembly of R83, for a word whose opcode is known. -/
def Opcode.operands (op : Opcode) (w : CmdWord) : Instr :=
  match op with
  | .nop => .nop
  | .rxByte => .rxByte (cmdA8 w)
  | .rxStep => .rxStep
  | .rxError => .rxError
  | .txSend => .txSend (cmdA8 w) (cmdD64 w)
  | .idDecode => .idDecode (cmdD32 w)
  | .fxLoad => .fxLoad (cmdD64 w)
  | .fxTake => .fxTake (cmdA8 w)
  | .tmrConfig => .tmrConfig (cmdA8 w) (cmdNode w) (cmdFidx w) (cmdD32 w)
  | .tmrKick => .tmrKick (cmdNode w) (cmdFidx w)
  | .tmrTick => .tmrTick

/-- The first two checks of R191 in their order, then the operands of R83. The third check,
`SLOT_RANGE`, needs the parameter `NT` and stands in the meaning of `TMR_CONFIG` (log entry 11). -/
def decode (w : CmdWord) : Except IllegalCause Instr :=
  match opcodeOfByte (cmdOpc w) with
  | none => .error .badOpcode
  | some op => if w &&& op.mask = op.matchWord then .ok (op.operands w) else .error .reservedNonzero

/-- The instruction read from bits numbered as spec/opcode_table.json numbers them: a command word
is one 96-bit number (R80), bit 0 the least significant; bits at or above `nbits` are 0. -/
def decodeTableWord (nbits w : Nat) : Option Instr :=
  match decode (BitVec.ofNat 96 (w % 2 ^ nbits)) with
  | .ok i => some i
  | .error _ => none

/-! ### Encoding -/

/-- `cmd = opc | a8 << 8 | a16 << 16 | d64 << 32` (R80). -/
def packCmd (opc a8 : BitVec 8) (a16 : BitVec 16) (d64 : BitVec 64) : CmdWord :=
  opc.setWidth 96 ||| a8.setWidth 96 <<< 8 ||| a16.setWidth 96 <<< 16 ||| d64.setWidth 96 <<< 32

/-- `a16[6:0]` nodeId, `a16[7]` reserved, `a16[15:8]` frame index (R80). -/
def packKey (node : BitVec 7) (fidx : BitVec 8) : BitVec 16 :=
  node.setWidth 16 ||| fidx.setWidth 16 <<< 8

/-- The one command word of a command: its opcode, its operands, every reserved bit 0 (R81, R83). -/
def encode : Instr → CmdWord
  | .nop => packCmd 0x00#8 0#8 0#16 0#64
  | .rxByte b => packCmd 0x01#8 b 0#16 0#64
  | .rxStep => packCmd 0x02#8 0#8 0#16 0#64
  | .rxError => packCmd 0x03#8 0#8 0#16 0#64
  | .txSend len data => packCmd 0x10#8 len 0#16 data
  | .idDecode id => packCmd 0x20#8 0#8 0#16 (id.setWidth 64)
  | .fxLoad data => packCmd 0x21#8 0#8 0#16 data
  | .fxTake len => packCmd 0x22#8 len 0#16 0#64
  | .tmrConfig slot node fidx tmo => packCmd 0x30#8 slot (packKey node fidx) (tmo.setWidth 64)
  | .tmrKick node fidx => packCmd 0x31#8 0#8 (packKey node fidx) 0#64
  | .tmrTick => packCmd 0x32#8 0#8 0#16 0#64

end Sys2Proof
end

