-- ==== Sys2Proof/Config.lean ====
section
/-! DEFINITION. What an implementation fixes: the fixed constants and the parameters of R6, the
constraints of R7, and the free values of the model (opaque constants with no body). -/

namespace Sys2Proof

/-! ### Fixed constants (R6) -/

/-- `SOF`, the start-of-frame byte. -/
abbrev Config.sof : Byte := 0xFF#8
/-- `RX_CAP`, the capacity of the receive ring in bytes. -/
abbrev Config.rxCap : Nat := 256
/-- `NOISE_MAX`, the largest unconsumed length kept when no SOF is present. -/
abbrev Config.noiseMax : Nat := 128
/-- `RX_FRAME_LEN`, the inbound frame length in bytes. -/
abbrev Config.rxFrameLen : Nat := 15
/-- `RX_PAYLOAD_LEN`, the inbound payload length in bytes. -/
abbrev Config.rxPayloadLen : Nat := 12
/-- `TX_PAYLOAD_LEN`, the outbound payload length in bytes. -/
abbrev Config.txPayloadLen : Nat := 8
/-- `TX_FRAME_LEN`, the outbound frame length in bytes. -/
abbrev Config.txFrameLen : Nat := 11
/-- `FX_MAX_LEN`, the largest valid field length of the extractor. -/
abbrev Config.fxMaxLen : Nat := 32
/-- `FX_WORD`, the width of the extractor's data word. -/
abbrev Config.fxWord : Nat := 64

/-! ### Parameters (R6, R7) -/

/-- `RX_FULL_POLICY`: what a byte arriving at a full ring does (R111). -/
inductive RxFullPolicy where
  | hold
  | drop
deriving DecidableEq, Repr

/-- The configurable parameters of R6. They are fixed for a run and no command writes them (R39). -/
structure Params where
  /-- `TICK_MS`, subtracted from every active slot per tick. -/
  tickMs : Nat
  /-- `OVERDUE_MS`: an alert fires when the remaining time is below `-OVERDUE_MS`. -/
  overdueMs : Nat
  /-- `BACKOFF_MIN_MS`, the lowest reload value after an alert. -/
  backoffMinMs : Nat
  /-- `NT`, the number of timer slots. -/
  nt : Nat
  /-- `RX_FULL_POLICY`. -/
  rxFullPolicy : RxFullPolicy
deriving DecidableEq, Repr

/-- The constraints of R7. A set that breaks one is a startup configuration error. -/
def Params.valid (p : Params) : Bool :=
  decide (1 ≤ p.tickMs) && decide (p.tickMs ≤ 2 ^ 20) && decide (p.overdueMs ≤ 2 ^ 20) &&
    decide (p.backoffMinMs ≤ 2 ^ 30) && decide (1 ≤ p.nt) && decide (p.nt ≤ 256)

/-- The defaults of R6. `NT` is OPEN in R6: 4, the number the spec's test vectors use, is a
DESIGN CHOICE (log entry 1), unsafe for a statement that rests on it; no statement does. -/
def Params.default : Params where
  tickMs := 5
  overdueMs := 5
  backoffMinMs := 1000
  nt := 4
  rxFullPolicy := .hold

/-! ### Free values -/

/-- The arbiter's free choice at its `n`-th pick (R206, 93 I8: "any value"). Nothing is known of it
(log entry 3). Safe: a claim holds whatever it is. -/
opaque Config.arbiterPick : Nat → Nat

/-- What a ring byte that no `RX_BYTE` has written since reset holds (R44, 93 I7: "any value").
Nothing is known of it (log entry 2). Safe: a claim holds whatever it is. -/
opaque Config.ringUnspecified : Nat → Byte

end Sys2Proof
end

