-- ==== Sys2Proof/Machine/Event.lean ====
section
/-! DEFINITION. The records of the output event stream (R200, R201) and their codes (R201, R202). -/

namespace Sys2Proof.Machine

/-- The three fields of an identifier (R76, R150). -/
structure IdFields where
  nodeId : BitVec 7
  functionCode : BitVec 4
  extendedId : BitVec 18
deriving DecidableEq, Repr

/-- The causes of `EV_FX_ERROR` (R202). -/
inductive FxCause where
  | invalidLen
  | overflow
  | aborted
deriving DecidableEq, Repr

/-- What an event reports, with the fields of R201. Payloads and frames are bytes in wire order. -/
inductive EventBody where
  /-- `EV_FRAME_OK` (R116, R118). -/
  | frameOk (payload : List Byte) (id32 : BitVec 32) (data64 : BitVec 64) (fields : IdFields)
  /-- `EV_FRAME_BAD` (R117, R118). -/
  | frameBad (payload : List Byte) (rxck ck : BitVec 16) (id32 : BitVec 32) (data64 : BitVec 64)
      (fields : IdFields)
  /-- `EV_IO_ERROR` (R119). -/
  | ioError
  /-- `EV_RX_DROP` (R111). -/
  | rxDrop (byte : Byte)
  /-- `EV_TX_FRAME` (R140, R142, R143). -/
  | txFrame (bytes : List Byte)
  /-- `EV_ID_FIELDS` (R151). -/
  | idFields (id32 : BitVec 32) (fields : IdFields)
  /-- `EV_FX_VALUE` (R156). -/
  | fxValue (value : BitVec 32) (len : BitVec 8) (cur : BitVec 7)
  /-- `EV_FX_ERROR` (R156, R157). -/
  | fxError (cause : FxCause) (len : BitVec 8) (cur : BitVec 7)
  /-- `EV_TMR_ALERT` (R178). -/
  | tmrAlert (slot : BitVec 8) (nodeId : BitVec 7) (frameIndex : BitVec 8)
  /-- `EV_ILLEGAL` (R192). -/
  | illegal (cause : IllegalCause) (cmd : CmdWord)
deriving DecidableEq, Repr

/-- One record of the stream: the port of the command that emitted it, and what it reports (R200). -/
structure Event where
  port : Port
  body : EventBody
deriving DecidableEq, Repr

/-- The event codes of R201. -/
def EventBody.code : EventBody → BitVec 8
  | .frameOk _ _ _ _ => 0x01#8
  | .frameBad _ _ _ _ _ _ => 0x02#8
  | .ioError => 0x03#8
  | .rxDrop _ => 0x04#8
  | .txFrame _ => 0x05#8
  | .idFields _ _ => 0x06#8
  | .fxValue _ _ _ => 0x07#8
  | .fxError _ _ _ => 0x08#8
  | .tmrAlert _ _ _ => 0x09#8
  | .illegal _ _ => 0x0A#8

/-- The cause codes of `EV_FX_ERROR` (R202). -/
def FxCause.code : FxCause → Nat
  | .invalidLen => 1
  | .overflow => 2
  | .aborted => 3

/-- The cause codes of `EV_ILLEGAL` (R192, R202). -/
def illegalCauseCode : IllegalCause → Nat
  | .badOpcode => 1
  | .reservedNonzero => 2
  | .slotRange => 3

end Sys2Proof.Machine
end

