-- ==== Sys2Proof/Machine/State.lean ====
section
/-! DEFINITION. The machine's state as plain data (R20), the reasons a step can stop, and the state
after reset (R44). -/

namespace Sys2Proof.Machine

/-- The receive ring's contents: (address, byte) pairs, addresses strictly rising, each below 256. An
address that is not listed has not been written since reset and reads as no value (R25, R44). -/
abbrev Memory := List Host.Cell

/-- The canonical form of the ring's contents: strictly rising addresses, all below `RX_CAP` (R50).
An unlisted address reads as no value, so no entry can equal what an unlisted address reads as. -/
def Memory.wf : Memory → Bool
  | [] => true
  | [(a, _)] => decide (a < Config.rxCap)
  | (a, _) :: (b, y) :: rest => decide (a < b) && Memory.wf ((b, y) :: rest)

/-- One slot of the timer table (R20, R30). `tmo` and `rem` are signed 32-bit milliseconds. -/
structure Slot where
  valid : Bool
  node : BitVec 7
  fidx : BitVec 8
  tmo : BitVec 32
  rem : BitVec 32
deriving DecidableEq, Repr

/-- A slot after reset (R44). -/
def Slot.cleared : Slot where
  valid := false
  node := 0#7
  fidx := 0#8
  tmo := 0#32
  rem := 0#32

/-- The four port queues, each the waiting command words, the head first (R206). -/
structure Ports where
  link : List CmdWord
  core : List CmdWord
  tick : List CmdWord
  host : List CmdWord
deriving DecidableEq, Repr

/-- All ports empty (R212, R230). -/
def Ports.empty : Ports where
  link := []
  core := []
  tick := []
  host := []

/-- Everything the spec gives the machine: the table of R20, the parameters of R6, the ports of R206
and the event stream of R200; and three fields of the model's own (log entries 3, 6, 7). -/
structure State where
  /-- The parameters of R6, fixed for a run (R39). -/
  params : Params
  /-- `RXB[0..255]` (R22). -/
  rxb : Memory
  /-- `rx_head` (R23). -/
  rxHead : BitVec 8
  /-- `rx_count` (R23, R24). -/
  rxCount : BitVec 9
  /-- The timer table, slot 0 first (R30). -/
  slots : List Slot
  /-- `fx_data` (R35). -/
  fxData : BitVec 64
  /-- `fx_cur` (R36). -/
  fxCur : BitVec 7
  /-- `fx_abort` (R37). -/
  fxAbort : Bool
  /-- The command ports (R206). -/
  ports : Ports
  /-- The output event stream, oldest record first (R200). -/
  events : List Event
  /-- The model's own: the port of the command being executed, which tags its events (R12, R200). -/
  cmdPort : Port
  /-- The model's own: the reset input is asserted; the next step reads it (R230). -/
  resetPin : Bool
  /-- The model's own: how many picks the arbiter has made; `Config.arbiterPick` of it is the free
  choice of the next one (R206). -/
  arbTurn : Nat
deriving DecidableEq, Repr

/-- Reasons a step stops with a fault. There is none: "The block never traps, halts or changes mode"
(60_exceptions.md, R203); every error condition is an event and the command completes (log entry 21). -/
inductive Fault where
deriving DecidableEq, Repr

/-- Reasons a step is refused. -/
inductive Refusal where
  /-- Raised by an arm of `exec` for an instruction that has no meaning yet; no arm does. Safe. -/
  | notModelled (mnemonic : String)
  /-- Raised by `step` when the parameters break R7: a startup configuration error, which "the model
  refuses and gives no run" (R7, R237, 93 I3). Safe: the machine does nothing at all (log entry 10). -/
  | configuration
deriving DecidableEq, Repr

/-- The machine right after power-on with the parameters `p`: the reset values of R44, empty ports
(R212), an empty event stream. Nothing is listed in the ring: its contents are unspecified (R44). -/
def State.resetWith (p : Params) : State where
  params := p
  rxb := []
  rxHead := 0#8
  rxCount := 0#9
  slots := List.replicate p.nt Slot.cleared
  fxData := 0#64
  fxCur := 0#7
  fxAbort := true
  ports := Ports.empty
  events := []
  cmdPort := .host
  resetPin := false
  arbTurn := 0

/-- The machine right after reset with the default parameters (R6, R44). -/
def State.reset : State := State.resetWith Params.default

end Sys2Proof.Machine
end

