-- ==== Sys2Proof/Machine/Ops.lean ====
section
/-! DEFINITION. The named operations over the ring, the event stream, the ports and the reset input
(R11, R12, R200, R206, R230). The block takes no exception (R203): there is no entry or return. -/

namespace Sys2Proof.Machine

/-! ### The ring's contents as memory (R11, R50) -/

/-- The byte listed at an address, if one has been written there since reset. -/
def Memory.read : Memory → Nat → Option Byte
  | [], _ => none
  | (b, x) :: rest, a => if b = a then some x else Memory.read rest a

/-- Write one byte, keeping the addresses strictly rising. -/
def Memory.write : Memory → Nat → Byte → Memory
  | [], a, v => [(a, v)]
  | (b, x) :: rest, a, v =>
    if a < b then (a, v) :: (b, x) :: rest
    else if a = b then (a, v) :: rest
    else (b, x) :: Memory.write rest a v

/-- `RXB[a mod 256]`, also `MemRead(a, 1)` (R11). A byte not written since reset holds any value:
the free value `Config.ringUnspecified` (R25, R44, 93 I7; log entry 2). -/
def State.rxbRead (s : State) (a : Nat) : Byte :=
  match s.rxb.read (a % Config.rxCap) with
  | some b => b
  | none => Config.ringUnspecified (a % Config.rxCap)

/-- `RXB[a mod 256] <- v`, also `MemWrite(a, 1, v)` (R11). -/
def State.rxbWrite (s : State) (a : Nat) (v : Byte) : State :=
  { s with rxb := s.rxb.write (a % Config.rxCap) v }

/-! ### The ring as a queue (R11, R23) -/

/-- `Ring(k) = RXB[(rx_head + k) mod 256]`, the k-th unconsumed byte (R11). -/
def State.ring (s : State) (k : Nat) : Byte := s.rxbRead (s.rxHead.toNat + k)

/-- The first `n` bytes `Ring(0) .. Ring(n-1)`. -/
def State.ringBytes (s : State) (n : Nat) : List Byte := (List.range n).map s.ring

/-- The unconsumed bytes, oldest first: `Ring(0) .. Ring(rx_count-1)` (R23). -/
def State.unconsumed (s : State) : List Byte := s.ringBytes s.rxCount.toNat

/-- The physical index the next byte is appended at: `(rx_head + rx_count) mod 256` (R50, R110). -/
def State.ringTail (s : State) : Nat := (s.rxHead.toNat + s.rxCount.toNat) % Config.rxCap

/-- Append one byte: the two writes of R110. -/
def State.ringAppend (s : State) (b : Byte) : State :=
  { s.rxbWrite s.ringTail b with rxCount := s.rxCount + 1#9 }

/-- `Drop(n)`: `rx_head <- (rx_head + n) mod 256; rx_count <- rx_count - n`, with `n <= rx_count` (R11). -/
def State.ringDrop (s : State) (n : Nat) : State :=
  { s with rxHead := s.rxHead + BitVec.ofNat 8 n, rxCount := s.rxCount - BitVec.ofNat 9 n }

/-! ### The event stream (R12, R200) -/

/-- `emit`: append one record, tagged with the port of the command being executed (R12, R200). -/
def State.emit (s : State) (body : EventBody) : State :=
  { s with events := s.events ++ [⟨s.cmdPort, body⟩] }

/-- Emit several records in order. -/
def State.emitAll (s : State) (bodies : List EventBody) : State :=
  { s with events := s.events ++ bodies.map (fun body => ⟨s.cmdPort, body⟩) }

/-- `raise X(cmd)`: emit `EV_ILLEGAL{cause: X, cmd: cmd}`; the command ends with no other change to
any state (R12, R192). -/
def State.raiseIllegal (s : State) (cause : IllegalCause) (cmd : CmdWord) : State :=
  s.emit (.illegal cause cmd)

/-- The outbound byte stream an event stream carries: the bytes of its `EV_TX_FRAME` records, each
record's bytes contiguous (R51, R143). -/
def outboundBytes : List Event → List Byte
  | [] => []
  | e :: rest =>
    match e.body with
    | .txFrame bytes => bytes ++ outboundBytes rest
    | _ => outboundBytes rest

/-! ### The extractor registers and the timer table -/

/-- Write the cursor (R36). -/
def State.setFxCur (s : State) (c : BitVec 7) : State := { s with fxCur := c }

/-- Set the sticky abort flag (R37, R156). -/
def State.setFxAbort (s : State) : State := { s with fxAbort := true }

/-- Replace the timer table. -/
def State.setSlots (s : State) (t : List Slot) : State := { s with slots := t }

/-! ### The ports (R206) -/

/-- The waiting command words of a port, the head first. -/
def Ports.get (q : Ports) : Port → List CmdWord
  | .link => q.link
  | .core => q.core
  | .tick => q.tick
  | .host => q.host

/-- Replace one port's queue. -/
def Ports.put (q : Ports) (p : Port) (ws : List CmdWord) : Ports :=
  match p with
  | .link => { q with link := ws }
  | .core => { q with core := ws }
  | .tick => { q with tick := ws }
  | .host => { q with host := ws }

/-- The host presents one command word on a port: it joins the end of that port's queue (R206;
log entry 17). Something the outside does between two steps, not a step of the block. -/
def State.present (s : State) (p : Port) (w : CmdWord) : State :=
  { s with ports := s.ports.put p (s.ports.get p ++ [w]) }

/-- The arbiter accepts the head command of a port: the word leaves the queue, and the port tags
every event of the command (R12, R206). -/
def State.accept (s : State) (p : Port) : State :=
  { s with ports := s.ports.put p (s.ports.get p).tail, cmdPort := p, arbTurn := s.arbTurn + 1 }

/-- Only this command word waits, at the head of `HOST`, and no reset is asserted: the next step
accepts it unless it is held (log entry 9). -/
def State.presentAlone (s : State) (w : CmdWord) : State :=
  { s with
    ports := { link := [], core := [], tick := [], host := w :: s.ports.host }
    resetPin := false }

/-! ### Reset (R230, R231, R44) -/

/-- The outside asserts the reset input; the next step reads it (R230; log entry 6). -/
def State.assertReset (s : State) : State := { s with resetPin := true }

/-- What reset does (R230): every state item takes its reset value of R44, all four ports are emptied
(a held `RX_BYTE` with them), the event stream stays as it was. The parameters are fixed for the run
(R39). The arbiter's turn, a field of the model's own, goes on counting (log entry 3). -/
def State.applyReset (s : State) : State :=
  { State.resetWith s.params with events := s.events, arbTurn := s.arbTurn }

end Sys2Proof.Machine
end

