-- ==== Sys2Proof/Machine/Flags.lean ====
section
/-! DEFINITION. The block's conditions. It has no condition codes (R38): its flags are `fx_abort` and
`slot_valid`, which are state, and the derived signals below, which are not stored. -/

namespace Sys2Proof.Machine

/-- `rx_ready = (rx_count < 256)` (R24, R38). -/
def State.rxReady (s : State) : Bool := decide (s.rxCount.toNat < Config.rxCap)

/-- An active slot: `slot_valid[i] = 1` and `slot_tmo[i] > 0`, signed (R31, R170). -/
def Slot.active (sl : Slot) : Bool := sl.valid && decide (0 < sl.tmo.toInt)

/-- The slot's key is `(node, fidx)` (R30, R175). -/
def Slot.keyIs (sl : Slot) (node : BitVec 7) (fidx : BitVec 8) : Bool :=
  sl.node == node && sl.fidx == fidx

/-- The slot's remaining time after one tick, as an exact integer: `slot_rem - TICK_MS` (R178, R9). -/
def Slot.remAfterTick (p : Params) (sl : Slot) : Int := sl.rem.toInt - p.tickMs

/-- The next tick finds an active slot overdue: `slot_rem - TICK_MS < -OVERDUE_MS` (R178). -/
def Slot.alerts (p : Params) (sl : Slot) : Bool :=
  sl.active && decide (sl.remAfterTick p < -(p.overdueMs : Int))

/-- A length of the extractor is invalid: above 32 (R154, R156). -/
def fxInvalidLen (len : BitVec 8) : Bool := decide (Config.fxMaxLen < len.toNat)

/-- A field request overflows: `fx_cur + len > 64`, strict (R154, R156). -/
def fxOverflows (cur : BitVec 7) (len : BitVec 8) : Bool :=
  decide (Config.fxWord < cur.toNat + len.toNat)

end Sys2Proof.Machine
end

