-- ==== Sys2Proof/Machine/Arbiter.lean ====
section
/-! DEFINITION. The port arbiter: which head commands are enabled, and the free choice among the
enabled ports (R206, R111, R60). -/

namespace Sys2Proof.Machine

/-- A command word is held: a legal `RX_BYTE` at a full ring under HOLD (R111, R206). An illegal word
is never held (R192). -/
def State.held (s : State) (w : CmdWord) : Bool :=
  match decode w with
  | .ok (.rxByte _) => !s.rxReady && s.params.rxFullPolicy == .hold
  | _ => false

/-- The head command of a port, if there is one and it is enabled (R206). -/
def State.enabledHead (s : State) (p : Port) : Option CmdWord :=
  match s.ports.get p with
  | [] => none
  | w :: _ => if s.held w then none else some w

/-- The ports whose head command is enabled (R206). -/
def State.enabledPorts (s : State) : List Port :=
  [Port.link, Port.core, Port.tick, Port.host].filter fun p => (s.enabledHead p).isSome

/-- The port the free choice `k` picks among the enabled ones: none when there is none, the only one
when there is one, any of them otherwise (R206; log entry 3). -/
def arbitrate (k : Nat) (enabled : List Port) : Option Port :=
  match enabled with
  | [] => none
  | [p] => some p
  | p :: q :: rest => (p :: q :: rest)[k % (rest.length + 2)]?

end Sys2Proof.Machine
end

