-- ==== Sys2Proof/Machine/Operands.lean ====
section
/-! DEFINITION. Operand and field assembly: the byte-order helpers (R10, R52), the views of a frame
(R70 to R73), the identifier split (R76, R150), the cursor field (R153) and the send payload (R141). -/

namespace Sys2Proof.Machine

/-! ### Byte order (R10, R52): the byte at the lower stream position is the less significant -/

/-- `le16(b0, b1) = b0 | (b1 << 8)` (R10). -/
def le16 (b0 b1 : Byte) : BitVec 16 := b0.setWidth 16 ||| b1.setWidth 16 <<< 8

/-- `le32(b0..b3) = b0 | b1<<8 | b2<<16 | b3<<24` (R10). -/
def le32 (b0 b1 b2 b3 : Byte) : BitVec 32 :=
  b0.setWidth 32 ||| b1.setWidth 32 <<< 8 ||| b2.setWidth 32 <<< 16 ||| b3.setWidth 32 <<< 24

/-- `le64(b0..b7)`, byte `i` at bit `8i` (R10). -/
def le64 (b0 b1 b2 b3 b4 b5 b6 b7 : Byte) : BitVec 64 :=
  b0.setWidth 64 ||| b1.setWidth 64 <<< 8 ||| b2.setWidth 64 <<< 16 ||| b3.setWidth 64 <<< 24 |||
    b4.setWidth 64 <<< 32 ||| b5.setWidth 64 <<< 40 ||| b6.setWidth 64 <<< 48 ||| b7.setWidth 64 <<< 56

/-- Byte `i` of a value: `v[8i+7:8i]` (R8). -/
def byteOf {n : Nat} (v : BitVec n) (i : Nat) : Byte := v.extractLsb' (8 * i) 8

/-- `bytes_le(v, k)`: the first `k` bytes of `v`, least significant first (R10). -/
def bytesLe {n : Nat} (v : BitVec n) (k : Nat) : List Byte := (List.range k).map (byteOf v)

/-- Item `i` of a byte string; every use below stays inside the string. -/
def byteAt (bs : List Byte) (i : Nat) : Byte := bs.getD i 0#8

/-! ### Views of an inbound frame and its payload (R70 to R72) -/

/-- `rxck = le16(f[1], f[2])` (R71). -/
def frameRxck (f : List Byte) : BitVec 16 := le16 (byteAt f 1) (byteAt f 2)

/-- `p[0..11] = f[3..14]` (R71). -/
def framePayload (f : List Byte) : List Byte := (f.drop 3).take Config.rxPayloadLen

/-- `id32 = le32(p[0..3])` (R72). -/
def payloadId32 (p : List Byte) : BitVec 32 :=
  le32 (byteAt p 0) (byteAt p 1) (byteAt p 2) (byteAt p 3)

/-- `data64 = le64(p[4..11])` (R72). -/
def payloadData64 (p : List Byte) : BitVec 64 :=
  le64 (byteAt p 4) (byteAt p 5) (byteAt p 6) (byteAt p 7)
    (byteAt p 8) (byteAt p 9) (byteAt p 10) (byteAt p 11)

/-! ### Bit fields -/

/-- `id_fields(id) = (id[6:0], id[10:7], id[28:11])`; bits 31:29 are not used (R150, R78). -/
def idFields (id : BitVec 32) : IdFields where
  nodeId := id.extractLsb' 0 7
  functionCode := id.extractLsb' 7 4
  extendedId := id.extractLsb' 11 18

/-- `fx_field(w, c, L) = (w >> c) & ((1 << L) - 1)`, at most 32 bits wide (R153). -/
def fxField (w : BitVec 64) (c len : Nat) : BitVec 32 :=
  ((w >>> c) &&& BitVec.ofNat 64 (2 ^ len - 1)).setWidth 32

/-! ### The send payload and frame (R73, R140 to R142) -/

/-- `q[0..7]`: byte `i` of the data below `min(len, 8)`, `0x00` from there on (R140, R141). -/
def txPayload (len : BitVec 8) (data : BitVec 64) : List Byte :=
  (List.range Config.txPayloadLen).map fun i =>
    if i < min len.toNat Config.txPayloadLen then byteOf data i else 0x00#8

/-- `0xFF | checksum16(LE) | 8 data bytes` (R73, R142). -/
def txFrameBytes (ck : BitVec 16) (q : List Byte) : List Byte :=
  Config.sof :: byteOf ck 0 :: byteOf ck 1 :: q

end Sys2Proof.Machine
end

