-- ==== Sys2Proof/Machine/Extractor.lean ====
section
/-! DEFINITION. The bit-field extractor: ID_DECODE, FX_LOAD, FX_TAKE (R150 to R159). -/

namespace Sys2Proof.Machine

/-- `ID_DECODE id` (R151). -/
def execIdDecode (id : BitVec 32) (s : State) : Host.Outcome State Fault Refusal :=
  .next (s.emit (.idFields id (idFields id)))

/-- `FX_LOAD data` (R155): a new word, cursor 0, abort flag clear; no event. -/
def execFxLoad (data : BitVec 64) (s : State) : Host.Outcome State Fault Refusal :=
  .next { s with fxData := data, fxCur := 0#7, fxAbort := false }

/-- `FX_TAKE len` (R156, R157): ABORTED before INVALID_LEN before OVERFLOW, else the field's value
and the cursor past it. -/
def execFxTake (len : BitVec 8) (s : State) : Host.Outcome State Fault Refusal :=
  if s.fxAbort then .next (s.emit (.fxError .aborted len s.fxCur))
  else if fxInvalidLen len then .next (s.setFxAbort.emit (.fxError .invalidLen len s.fxCur))
  else if fxOverflows s.fxCur len then .next (s.setFxAbort.emit (.fxError .overflow len s.fxCur))
  else
    .next ((s.emit (.fxValue (fxField s.fxData s.fxCur.toNat len.toNat) len s.fxCur)).setFxCur
      (BitVec.ofNat 7 (s.fxCur.toNat + len.toNat)))

end Sys2Proof.Machine
end

