-- ==== Sys2Proof/Machine/Misc.lean ====
section
/-! DEFINITION. The no-operation (R190). -/

namespace Sys2Proof.Machine

/-- `NOP` (R190): reads and writes no state and emits no event. -/
def execNop (s : State) : Host.Outcome State Fault Refusal := .next s

end Sys2Proof.Machine
end

