-- ==== Sys2Proof/Machine/Checksum.lean ====
section
/-! DEFINITION. The checksum validator: the Internet one's-complement 16-bit checksum with
little-endian word pairing (R100 to R107; 90_conflicts.md C1). It holds no state. -/

namespace Sys2Proof.Machine

/-- The sum of the little-endian 16-bit words of a byte string; an odd trailing byte contributes only
its low byte (R100, R101). The accumulator is unbounded (R102). -/
def wordSum : List Byte → Nat
  | [] => 0
  | [lo] => (le16 lo 0x00#8).toNat
  | lo :: hi :: rest => (le16 lo hi).toNat + wordSum rest

/-- One fold of the carries: `(sum & 0xFFFF) + (sum >> 16)` (R100). -/
def foldCarry (sum : Nat) : Nat := (sum &&& 0xFFFF) + (sum >>> 16)

/-- `inet_cksum(p)`: sum, fold twice, one's complement over 32 bits, masked to 16 bits (R100). -/
def inetCksum (p : List Byte) : BitVec 16 :=
  (~~~(BitVec.ofNat 32 (foldCarry (foldCarry (wordSum p))))).setWidth 16

/-- An inbound frame is valid exactly when `rxck == inet_cksum(p)`, bit for bit (R103). -/
def frameValid (f : List Byte) : Bool := frameRxck f == inetCksum (framePayload f)

end Sys2Proof.Machine
end

