-- ==== Sys2Proof/Machine/RxFramer.lean ====
section
/-! DEFINITION. The receive framer and deserializer: RX_BYTE, RX_STEP, RX_ERROR (R110 to R123). -/

namespace Sys2Proof.Machine

/-- The least offset of a `0xFF` in a byte string, if there is one (R113, R117). -/
def firstSof (bs : List Byte) : Option Nat := bs.findIdx? (fun b => b == Config.sof)

/-- The event of a candidate frame that validates (R116, R118). -/
def frameOkEvent (f : List Byte) : EventBody :=
  .frameOk (framePayload f) (payloadId32 (framePayload f)) (payloadData64 (framePayload f))
    (idFields (payloadId32 (framePayload f)))

/-- The event of a candidate frame whose checksum differs (R117, R118). -/
def frameBadEvent (f : List Byte) : EventBody :=
  .frameBad (framePayload f) (frameRxck f) (inetCksum (framePayload f))
    (payloadId32 (framePayload f)) (payloadData64 (framePayload f))
    (idFields (payloadId32 (framePayload f)))

/-- How many bytes a mismatch consumes: up to the least `0xFF` of the examined window `f[1..14]`, or
all 15 bytes when the window holds none (R117). -/
def resyncLength (f : List Byte) : Nat :=
  match firstSof (f.drop 1) with
  | some m => m + 1
  | none => Config.rxFrameLen

/-- Validate the 15-byte candidate at the head of the ring, and deliver it or resynchronize
(R116, R117). -/
def State.judgeCandidate (s : State) : State :=
  let f := s.ringBytes Config.rxFrameLen
  if frameValid f then (s.emit (frameOkEvent f)).ringDrop Config.rxFrameLen
  else (s.emit (frameBadEvent f)).ringDrop (resyncLength f)

/-- `RX_BYTE b` (R110, R111). At a full ring under HOLD the command is not accepted and the state is
unchanged: the arbiter never runs it (`State.held`), and its meaning changes nothing (log entry 4). -/
def execRxByte (b : BitVec 8) (s : State) : Host.Outcome State Fault Refusal :=
  if s.rxReady then .next (s.ringAppend b)
  else
    match s.params.rxFullPolicy with
    | .hold => .next s
    | .drop => .next (s.emit (.rxDrop b))

/-- `RX_STEP` (R112 to R117): SOF search, stale-noise discard, alignment and waiting, validation. -/
def execRxStep (s : State) : Host.Outcome State Fault Refusal :=
  match firstSof s.unconsumed with
  | none =>
    if Config.noiseMax < s.rxCount.toNat then .next (s.ringDrop s.rxCount.toNat) else .next s
  | some k =>
    if (s.ringDrop k).rxCount.toNat < Config.rxFrameLen then .next (s.ringDrop k)
    else .next (s.ringDrop k).judgeCandidate

/-- `RX_ERROR` (R119): report a link read error; no state changes. -/
def execRxError (s : State) : Host.Outcome State Fault Refusal := .next (s.emit .ioError)

end Sys2Proof.Machine
end

