-- ==== Sys2Proof/WellFormed.lean ====
section
/-! DEFINITION. When a command is well formed. Every operand has the width of its field (R83), so
the one check left is `slot < NT` of `TMR_CONFIG` (R84, R172). -/

namespace Sys2Proof

/-- `TMR_CONFIG` names a slot that exists (R84); every other command is well formed as it stands. -/
def Instr.wellFormed (p : Params) : Instr → Bool
  | .nop => true
  | .rxByte _ => true
  | .rxStep => true
  | .rxError => true
  | .txSend _ _ => true
  | .idDecode _ => true
  | .fxLoad _ => true
  | .fxTake _ => true
  | .tmrConfig slot _ _ _ => decide (slot.toNat < p.nt)
  | .tmrKick _ _ => true
  | .tmrTick => true

end Sys2Proof
end

