-- ==== Sys2Proof/Machine/Timer.lean ====
section
/-! DEFINITION. The countdown liveness timer with backoff: TMR_CONFIG, TMR_KICK, TMR_TICK
(R170 to R182). Timer arithmetic is exact on integers and then narrowed to 32 bits (log entry 13). -/

namespace Sys2Proof.Machine

/-- A slot as `TMR_CONFIG` leaves it: valid, keyed, and seeded with the full timeout (R172). -/
def Slot.configured (node : BitVec 7) (fidx : BitVec 8) (tmo : BitVec 32) : Slot where
  valid := true
  node := node
  fidx := fidx
  tmo := tmo
  rem := tmo

/-- The backoff reload value `max(slot_tmo, BACKOFF_MIN_MS)`, signed (R178, R182). -/
def Slot.backoff (p : Params) (sl : Slot) : BitVec 32 :=
  BitVec.ofInt 32 (max sl.tmo.toInt (p.backoffMinMs : Int))

/-- One slot's part of a kick: an active slot with the key is reloaded with its timeout (R175). -/
def Slot.kick (node : BitVec 7) (fidx : BitVec 8) (sl : Slot) : Slot :=
  if sl.active && sl.keyIs node fidx then { sl with rem := sl.tmo } else sl

/-- One slot's part of a tick: an active slot is decremented, and reloaded with the backoff value
when it is overdue (R178, R62). -/
def Slot.tick (p : Params) (sl : Slot) : Slot :=
  if sl.alerts p then { sl with rem := sl.backoff p }
  else if sl.active then { sl with rem := BitVec.ofInt 32 (sl.remAfterTick p) }
  else sl

/-- The alerts of one tick over the slots from index `i` on, in ascending slot order (R178). -/
def tickAlerts (p : Params) : Nat → List Slot → List EventBody
  | _, [] => []
  | i, sl :: rest =>
    if sl.alerts p then .tmrAlert (BitVec.ofNat 8 i) sl.node sl.fidx :: tickAlerts p (i + 1) rest
    else tickAlerts p (i + 1) rest

/-- `TMR_CONFIG slot, node, fidx, tmo` (R172). A slot that does not exist is illegal with cause
`SLOT_RANGE`, the third check of R191, and changes nothing (R84; log entry 11). -/
def execTmrConfig (slot : BitVec 8) (node : BitVec 7) (fidx : BitVec 8) (tmo : BitVec 32)
    (s : State) : Host.Outcome State Fault Refusal :=
  if (Instr.tmrConfig slot node fidx tmo).wellFormed s.params then
    .next (s.setSlots (s.slots.set slot.toNat (Slot.configured node fidx tmo)))
  else .next (s.raiseIllegal .slotRange (encode (.tmrConfig slot node fidx tmo)))

/-- `TMR_KICK node, fidx` (R175). -/
def execTmrKick (node : BitVec 7) (fidx : BitVec 8) (s : State) :
    Host.Outcome State Fault Refusal :=
  .next (s.setSlots (s.slots.map (Slot.kick node fidx)))

/-- `TMR_TICK` (R178). -/
def execTmrTick (s : State) : Host.Outcome State Fault Refusal :=
  .next ((s.setSlots (s.slots.map (Slot.tick s.params))).emitAll (tickAlerts s.params 0 s.slots))

end Sys2Proof.Machine
end

