-- ==== Sys2Proof/Machine/TxFramer.lean ====
section
/-! DEFINITION. The send framer: TX_SEND (R140 to R146). It holds no state. -/

namespace Sys2Proof.Machine

/-- `TX_SEND len, data` (R140 to R143): pad or truncate to 8 bytes, checksum them, emit the 11-byte
frame as one event. -/
def execTxSend (len : BitVec 8) (data : BitVec 64) (s : State) :
    Host.Outcome State Fault Refusal :=
  .next (s.emit (.txFrame (txFrameBytes (inetCksum (txPayload len data)) (txPayload len data))))

end Sys2Proof.Machine
end

