-- ==== Sys2Proof/Machine/Dispatch.lean ====
section
/-! DEFINITION. What each command does: one arm per row of the opcode table (R81). -/

namespace Sys2Proof.Machine

def exec (i : Instr) (s : State) : Host.Outcome State Fault Refusal :=
  match i with
  | .nop => Sys2Proof.Machine.execNop s
  | .rxByte b => Sys2Proof.Machine.execRxByte b s
  | .rxStep => Sys2Proof.Machine.execRxStep s
  | .rxError => Sys2Proof.Machine.execRxError s
  | .txSend len data => Sys2Proof.Machine.execTxSend len data s
  | .idDecode id => Sys2Proof.Machine.execIdDecode id s
  | .fxLoad data => Sys2Proof.Machine.execFxLoad data s
  | .fxTake len => Sys2Proof.Machine.execFxTake len s
  | .tmrConfig slot node fidx tmo => Sys2Proof.Machine.execTmrConfig slot node fidx tmo s
  | .tmrKick node fidx => Sys2Proof.Machine.execTmrKick node fidx s
  | .tmrTick => Sys2Proof.Machine.execTmrTick s

end Sys2Proof.Machine
end

