-- ==== Sys2Proof/Machine/Run.lean ====
section
/-! DEFINITION. One step of the machine: reset, or one arbiter pick, validation of the picked word and
its command (R191, R206, R230). -/

namespace Sys2Proof.Machine

/-- `execute(cmd)`: validate the word, then run its command or raise its cause (R191, R192). -/
def runWord (w : CmdWord) (s : State) : Host.Outcome State Fault Refusal :=
  match decode w with
  | .ok i => exec i s
  | .error cause => .next (s.raiseIllegal cause w)

/-- One arbiter step that picks port `p`: its enabled head command is removed and executed to
completion (R206). Where `p` has no enabled head, nothing happens. -/
def stepPort (p : Port) (s : State) : Host.Outcome State Fault Refusal :=
  match s.enabledHead p with
  | some w => runWord w (s.accept p)
  | none => .next s

/-- One step: a configuration that breaks R7 gets no run (R7, R237; log entry 10); an asserted reset
is applied (R230; log entry 6); otherwise the arbiter picks among the enabled ports (R206). With no
enabled head the block waits and its state is held (R214, R215, R232; log entry 5). -/
def machineStep (s : State) : Host.Outcome State Fault Refusal :=
  if s.params.valid then
    if s.resetPin then .next s.applyReset
    else
      match arbitrate (Config.arbiterPick s.arbTurn) s.enabledPorts with
      | some p => stepPort p s
      | none => .next s
  else .refused .configuration

end Sys2Proof.Machine
end

