-- ==== Sys2Proof/Machine/Step.lean ====
section
/-! DEFINITION. The step function, and how the host places a command for the next step. -/

namespace Sys2Proof.Machine

/-- One step of the machine (`machineStep`). -/
def step (s : State) : Host.Outcome State Fault Refusal := machineStep s

/-- `s` with the command word of `nbits` bits `w` as the only waiting command that can be picked, so
that the very next step runs it (log entry 9). Bits at or above `nbits` are 0. -/
def State.withFetchWord (s : State) (nbits w : Nat) : State :=
  s.presentAlone (BitVec.ofNat 96 (w % 2 ^ nbits))

end Sys2Proof.Machine
end

