-- ==== Sys2Proof/Machine/Asm.lean ====
section
/-! DEFINITION. The host side of the command interface: the conventional port of each command (R207),
the assembler syntax (R87) and the pseudo-commands (R88). Nothing in the machine depends on it. -/

namespace Sys2Proof.Machine

/-! ### Conventional ports (R207) -/

/-- The port that conventionally carries a command; `NOP` has none. Every command is legal on every
port (R207, R210). -/
def conventionalPort : Instr → Option Port
  | .nop => none
  | .rxByte _ => some .link
  | .rxStep => some .core
  | .rxError => some .link
  | .txSend _ _ => some .host
  | .idDecode _ => some .core
  | .fxLoad _ => some .core
  | .fxTake _ => some .core
  | .tmrConfig _ _ _ _ => some .host
  | .tmrKick _ _ => some .core
  | .tmrTick => some .tick

/-! ### Assembling (R87) -/

/-- An operand as written: a magnitude, with or without a `-` sign. -/
structure AsmOperand where
  negative : Bool
  magnitude : Nat
deriving DecidableEq, Repr

/-- An unsigned operand of `n` bits: no sign, and inside the field's range (R87). -/
def asmUnsigned (n : Nat) (o : AsmOperand) : Option (BitVec n) :=
  if !o.negative && decide (o.magnitude < 2 ^ n) then some (BitVec.ofNat n o.magnitude) else none

/-- The signed operand `tmo`: in -2^31 .. 2^31-1 (R87). -/
def asmTmo (o : AsmOperand) : Option (BitVec 32) :=
  if o.negative then
    if o.magnitude ≤ 2 ^ 31 then some (BitVec.ofInt 32 (-(o.magnitude : Int))) else none
  else if o.magnitude < 2 ^ 31 then some (BitVec.ofNat 32 o.magnitude) else none

/-- The forms of R87: a mnemonic and its operands in order. An operand out of its field's range, or a
wrong number of operands, does not assemble (R87, 93 I16). -/
def assemble (op : Opcode) (os : List AsmOperand) : Option Instr :=
  match op, os with
  | .nop, [] => some .nop
  | .rxByte, [b] => (asmUnsigned 8 b).map .rxByte
  | .rxStep, [] => some .rxStep
  | .rxError, [] => some .rxError
  | .txSend, [len, data] => do
    let l ← asmUnsigned 8 len
    let d ← asmUnsigned 64 data
    some (.txSend l d)
  | .idDecode, [id] => (asmUnsigned 32 id).map .idDecode
  | .fxLoad, [data] => (asmUnsigned 64 data).map .fxLoad
  | .fxTake, [len] => (asmUnsigned 8 len).map .fxTake
  | .tmrConfig, [slot, node, fidx, tmo] => do
    let i ← asmUnsigned 8 slot
    let n ← asmUnsigned 7 node
    let f ← asmUnsigned 8 fidx
    let t ← asmTmo tmo
    some (.tmrConfig i n f t)
  | .tmrKick, [node, fidx] => do
    let n ← asmUnsigned 7 node
    let f ← asmUnsigned 8 fidx
    some (.tmrKick n f)
  | .tmrTick, [] => some .tmrTick
  | _, _ => none

/-- The mnemonics of R81. -/
def opcodeMnemonics : List (List Char × Opcode) :=
  [("NOP".toList, .nop), ("RX_BYTE".toList, .rxByte), ("RX_STEP".toList, .rxStep),
    ("RX_ERROR".toList, .rxError), ("TX_SEND".toList, .txSend), ("ID_DECODE".toList, .idDecode),
    ("FX_LOAD".toList, .fxLoad), ("FX_TAKE".toList, .fxTake), ("TMR_CONFIG".toList, .tmrConfig),
    ("TMR_KICK".toList, .tmrKick), ("TMR_TICK".toList, .tmrTick)]

/-- The port prefixes of R87, without their colon. -/
def portNames : List (List Char × Port) :=
  [("LINK".toList, .link), ("CORE".toList, .core), ("TICK".toList, .tick), ("HOST".toList, .host)]

/-- Cut a text at every `c`. -/
def cutAt (c : Char) : List Char → List (List Char)
  | [] => [[]]
  | x :: rest =>
    if x = c then [] :: cutAt c rest
    else
      match cutAt c rest with
      | [] => [[x]]
      | piece :: pieces => (x :: piece) :: pieces

/-- A text without the spaces around it. -/
def trimSpaces (t : List Char) : List Char :=
  ((t.dropWhile (· = ' ')).reverse.dropWhile (· = ' ')).reverse

/-- The value of a digit in a base up to 16. The hexadecimal digits above 9 are `A` to `F` or `a` to `f`
alike: DESIGN CHOICE, R87 gives no letter case (log entry 15). Safe. -/
def digitValue (base : Nat) (c : Char) : Option Nat :=
  let n := c.toNat
  let v :=
    if 48 ≤ n ∧ n ≤ 57 then n - 48
    else if 65 ≤ n ∧ n ≤ 70 then n - 55
    else if 97 ≤ n ∧ n ≤ 102 then n - 87
    else 16
  if v < base then some v else none

/-- The value of digits in a base, most significant first, from an accumulator. -/
def digitsValue (base : Nat) : Nat → List Char → Option Nat
  | acc, [] => some acc
  | acc, c :: rest =>
    match digitValue base c with
    | some v => digitsValue base (acc * base + v) rest
    | none => none

/-- A number without its sign: decimal, or hexadecimal with `0x`; at least one digit (R87). The `x` is
lower-case, as R87 writes it, and leading zeros are allowed: DESIGN CHOICE (log entry 15). Safe. -/
def parseMagnitude (t : List Char) : Option Nat :=
  match t with
  | [] => none
  | ['0', 'x'] => none
  | '0' :: 'x' :: rest => digitsValue 16 0 rest
  | _ => digitsValue 10 0 t

/-- An operand: a number with an optional `-` (R87), which stands right before it: DESIGN CHOICE (log
entry 15). Safe. -/
def parseOperand (t : List Char) : Option AsmOperand :=
  match t with
  | '-' :: rest => (parseMagnitude rest).map fun n => ⟨true, n⟩
  | _ => (parseMagnitude t).map fun n => ⟨false, n⟩

/-- Every item of a list parses, or the whole does not. -/
def parseOperands : List (List Char) → Option (List AsmOperand)
  | [] => some []
  | t :: rest => do
    let o ← parseOperand (trimSpaces t)
    let os ← parseOperands rest
    some (o :: os)

/-- A command without its port: the mnemonic, then comma-separated operands (R87). -/
def parseCommand (t : List Char) : Option Instr := do
  let word := (trimSpaces t).takeWhile (· ≠ ' ')
  let operandText := trimSpaces ((trimSpaces t).dropWhile (· ≠ ' '))
  let op ← opcodeMnemonics.lookup word
  let os ← if operandText = [] then some [] else parseOperands (cutAt ',' operandText)
  assemble op os

/-- One line of assembler text: an optional port prefix, `HOST` without it, and a command (R87). -/
def parseLine (line : List Char) : Option (Port × Instr) :=
  match cutAt ':' line with
  | [command] => (parseCommand command).map fun i => (.host, i)
  | [name, command] => do
    let p ← portNames.lookup (trimSpaces name)
    let i ← parseCommand command
    some (p, i)
  | _ => none

/-! ### Pseudo-commands (R88) -/

/-- The pseudo-commands of R88, with their operands as data (log entry 15). -/
inductive Pseudo where
  | feed (bytes : List Byte)
  | poll (bytes : List Byte)
  | send (bytes : List Byte)
  | ticks (n : Nat)
  | walk (data : BitVec 64) (lens : List (BitVec 8))
  | seed (entries : List (BitVec 7 × BitVec 8 × BitVec 32))
deriving DecidableEq, Repr

/-- The `TMR_CONFIG` commands of a seed, each entry with its own slot from `i` on (R88, R236). -/
def seedFrom : Nat → List (BitVec 7 × BitVec 8 × BitVec 32) → List Instr
  | _, [] => []
  | i, (node, fidx, tmo) :: rest =>
    .tmrConfig (BitVec.ofNat 8 i) node fidx tmo :: seedFrom (i + 1) rest

/-- The expansion of a pseudo-command (R88). A seed with more entries than `NT` is a startup
configuration error and has none (R236). -/
def Pseudo.expand (p : Params) : Pseudo → Option (List Instr)
  | .feed bytes => some (bytes.map .rxByte)
  | .poll bytes => some (bytes.map .rxByte ++ [.rxStep])
  | .send v =>
    some [.txSend (BitVec.ofNat 8 (min v.length Config.txPayloadLen))
      (le64 (byteAt v 0) (byteAt v 1) (byteAt v 2) (byteAt v 3)
        (byteAt v 4) (byteAt v 5) (byteAt v 6) (byteAt v 7))]
  | .ticks n => some (List.replicate n .tmrTick)
  | .walk data lens => some (.fxLoad data :: lens.map .fxTake)
  | .seed entries => if entries.length ≤ p.nt then some (seedFrom 0 entries) else none

/-- The host presents commands one after the other on one port (R88: consecutive on one port). -/
def State.presentAll (s : State) (p : Port) (is : List Instr) : State :=
  is.foldl (fun t i => t.present p (encode i)) s

end Sys2Proof.Machine
end

