-- ==== Sys2Proof/Safety.lean ====
section
/-! DEFINITION. The terms claims are made in: the invariant of the block, runs of commands, the moves
of the machine and its surroundings, complete and stuck states. -/

namespace Sys2Proof.Machine

/-! ### The invariant -/

/-- What holds at reset and after every command: the parameters satisfy R7, the ring's contents have
their canonical form, `rx_count <= 256` (R24), every unconsumed byte has been written since reset
(93 I7), there are `NT` slots (R30), every active slot's remaining time is in the range of R32, and
the cursor is at most 64 (R36, R158(d)). -/
structure State.Inv (s : State) : Prop where
  paramsValid : s.params.valid = true
  memoryWf : s.rxb.wf = true
  countBound : s.rxCount.toNat ≤ 256
  ringWritten : ∀ k, k < s.rxCount.toNat →
    (s.rxb.read ((s.rxHead.toNat + k) % 256)).isSome = true
  slotCount : s.slots.length = s.params.nt
  slotRange : ∀ sl ∈ s.slots, sl.active = true →
    -(s.params.overdueMs : Int) ≤ sl.rem.toInt ∧
      sl.rem.toInt ≤ max sl.tmo.toInt (s.params.backoffMinMs : Int)
  cursorBound : s.fxCur.toNat ≤ 64

/-! ### Runs of commands -/

/-- Run commands one after the other (R13, R60), stopping at the first that does not answer next. -/
def execAll : List Instr → State → Host.Outcome State Fault Refusal
  | [], s => .next s
  | i :: rest, s =>
    match exec i s with
    | .next t => execAll rest t
    | .fault r => .fault r
    | .refused r => .refused r

/-- No `RX_BYTE` of the commands meets a full ring (the premise of R123). -/
def NeverFull : List Instr → State → Prop
  | [], _ => True
  | i :: rest, s =>
    (∀ b, i = .rxByte b → s.rxCount.toNat < 256) ∧ ∀ t, exec i s = .next t → NeverFull rest t

/-- The link bytes a list of commands delivers, in order (R51). -/
def linkBytes : List Instr → List Byte
  | [] => []
  | .rxByte b :: rest => b :: linkBytes rest
  | _ :: rest => linkBytes rest

/-- Reports made by one command or run, tagged with one port. -/
def tagged (p : Port) (bodies : List EventBody) : List Event :=
  bodies.map fun body => ⟨p, body⟩

/-- The word that extracted fields put back together: `sum over k of v_k << c_k` (R158(b)). -/
def reassembled : List EventBody → Nat
  | [] => 0
  | .fxValue v _ c :: rest => v.toNat <<< c.toNat + reassembled rest
  | _ :: rest => reassembled rest

/-- The field lengths that values were reported for, in order (R156). -/
def valueLengths : List EventBody → List (BitVec 8)
  | [] => []
  | .fxValue _ len _ :: rest => len :: valueLengths rest
  | _ :: rest => valueLengths rest

/-- How many alerts of slot `i` a list of reports holds. -/
def alertCount (i : Nat) : List EventBody → Nat
  | [] => 0
  | .tmrAlert j _ _ :: rest => (if j.toNat = i then 1 else 0) + alertCount i rest
  | _ :: rest => alertCount i rest

/-- `N(V) = floor((V + OVERDUE_MS) / TICK_MS) + 1` (R180). -/
def alertTick (p : Params) (v : Int) : Nat := ((v + p.overdueMs) / p.tickMs + 1).toNat

/-! ### The machine and its surroundings -/

/-- One move: the host presents a word (R206), the reset input is asserted or applied (R230), the
arbiter picks any enabled port (R206), or the deterministic step is taken. -/
inductive Move : State → State → Prop
  | present (s : State) (p : Port) (w : CmdWord) : Move s (s.present p w)
  | assertReset (s : State) : Move s s.assertReset
  | applyReset (s : State) : Move s s.applyReset
  | pick (s t : State) (p : Port) : p ∈ s.enabledPorts → stepPort p s = .next t → Move s t
  | step (s t : State) : step s = .next t → Move s t

/-- The states reachable from reset with parameters `p`, under any interleaving (R60, 93 I8). -/
inductive Reachable (p : Params) : State → Prop
  | start : Reachable p (State.resetWith p)
  | move {s t : State} : Reachable p s → Move s t → Reachable p t

/-- Every port is empty: a run that ends here is complete (R215). -/
def State.complete (s : State) : Bool := s.ports == Ports.empty

/-- A command waits and none is enabled: every waiting head is a held `RX_BYTE`, and nothing but reset
or a command newly presented on an empty port can release it (R215, 93 I10). R215's own case is a held
`RX_BYTE` that heads `LINK` while no other port has a command, with no `RX_STEP` left on any port. DEDUCED
from R111 and R206 (log entry 22): a held `RX_BYTE` that heads another port, or several ports, and one
with commands queued behind it on its own port, an `RX_STEP` among them, is stuck too. Safe. -/
def State.stuck (s : State) : Bool := !s.complete && s.enabledPorts.isEmpty

end Sys2Proof.Machine
end

