-- ==== Sys2Proof/Certificates/Slice0/Obligations.lean ====
section
/-! DEFINITION. The statements about the block, one definition each, with the rule of spec/ it follows. -/

open Sys2Proof Sys2Proof.Machine

/-! ### Encodings -/

/-- Decoding the word of any command gives that command back, with every operand at every value its
field admits (R80 to R83). -/
def Obligations.DecodeOfEncodeIsTheCommand : Prop :=
  ∀ i : Instr, decode (encode i) = .ok i

/-- A legal word is the encoding of the command it decodes to, so every legal command has exactly one
word per operand tuple (D4, R82, R83). -/
def Obligations.EncodeOfDecodeIsTheWord : Prop :=
  ∀ (w : CmdWord) (i : Instr), decode w = .ok i → encode i = w

/-- R82, with the match words and masks of R82 written out: the words of a command are exactly those
with `(cmd & mask) == match`; and, an inference R82 itself marks (derived from R81), no word matches
two rows. -/
def Obligations.CommandWordsAreThoseOfMatchAndMask : Prop :=
  let rows : List (Opcode × CmdWord × CmdWord) :=
    [(.nop, 0x00#96, 0xFFFFFFFFFFFFFFFFFFFFFFFF#96),
      (.rxByte, 0x01#96, 0xFFFFFFFFFFFFFFFFFFFF00FF#96),
      (.rxStep, 0x02#96, 0xFFFFFFFFFFFFFFFFFFFFFFFF#96),
      (.rxError, 0x03#96, 0xFFFFFFFFFFFFFFFFFFFFFFFF#96),
      (.txSend, 0x10#96, 0x0000000000000000FFFF00FF#96),
      (.idDecode, 0x20#96, 0xFFFFFFFF00000000FFFFFFFF#96),
      (.fxLoad, 0x21#96, 0x0000000000000000FFFFFFFF#96),
      (.fxTake, 0x22#96, 0xFFFFFFFFFFFFFFFFFFFF00FF#96),
      (.tmrConfig, 0x30#96, 0xFFFFFFFF00000000008000FF#96),
      (.tmrKick, 0x31#96, 0xFFFFFFFFFFFFFFFF0080FFFF#96),
      (.tmrTick, 0x32#96, 0xFFFFFFFFFFFFFFFFFFFFFFFF#96)]
  (∀ row ∈ rows, ∀ w : CmdWord,
      (∃ i, decode w = .ok i ∧ i.opcode = row.1) ↔ w &&& row.2.2 = row.2.1) ∧
    ∀ row ∈ rows, ∀ row' ∈ rows, ∀ w : CmdWord,
      w &&& row.2.2 = row.2.1 → w &&& row'.2.2 = row'.2.1 → row = row'

/-- Which words decoding rejects, and with which cause (R84, the first two checks of R191). That
decoding never answers SLOT_RANGE is the model's choice: it makes the third check of R191 in the
meaning of `TMR_CONFIG` (log entry 11). -/
def Obligations.RejectedWordsAndTheirCauses : Prop :=
  ∀ w : CmdWord,
    let legal := [0x00, 0x01, 0x02, 0x03, 0x10, 0x20, 0x21, 0x22, 0x30, 0x31, 0x32]
    (decode w = .error .badOpcode ↔ w.toNat % 256 ∉ legal) ∧
      (decode w = .error .reservedNonzero ↔ w.toNat % 256 ∈ legal ∧ ∀ i, encode i ≠ w) ∧
      decode w ≠ .error .slotRange

/-- The eight words of R89, encoded and decoded; the spec marks R89 as its own inference, derived from
R80 to R83. -/
def Obligations.WordsOfR89EncodeAndDecode : Prop :=
  ∀ x ∈ ([(.rxByte 0xFF#8, 0x00000000000000000000FF01#96),
      (.rxStep, 0x000000000000000000000002#96),
      (.tmrConfig 0#8 5#7 2#8 200#32, 0x00000000000000C802050030#96),
      (.tmrConfig 1#8 3#7 0#8 (BitVec.ofInt 32 (-1)), 0x00000000FFFFFFFF00030130#96),
      (.tmrKick 5#7 2#8, 0x000000000000000002050031#96),
      (.txSend 8#8 0x0000000000000005#64, 0x000000000000000500000810#96),
      (.fxTake 7#8, 0x000000000000000000000722#96),
      (.idDecode 0x00000185#32, 0x000000000000018500000020#96)] : List (Instr × CmdWord)),
    encode x.1 = x.2 ∧ decode x.2 = .ok x.1

/-! ### The step, the ports and the arbiter -/

/-- When the arbiter picks a port whose head word decodes to a command, the step removes the word from
that port and is that command, its events tagged with the port (R206, R12); and so is the arbiter step
at any port whose head is enabled, whatever the arbiter's choice (R60). The fields `cmdPort`, `arbTurn`
and `resetPin` are the model's own (log entries 7, 3 and 6), and so is the free value
`Config.arbiterPick` of `arbTurn` that stands for the arbiter's choice (log entry 3). -/
def Obligations.StepRunsTheDecodedCommand : Prop :=
  ∀ (s : State) (p : Port) (w : CmdWord) (rest : List CmdWord) (i : Instr),
    s.ports.get p = w :: rest → decode w = .ok i →
    (s.enabledHead p = some w →
      stepPort p s =
        exec i { s with ports := s.ports.put p rest, cmdPort := p, arbTurn := s.arbTurn + 1 }) ∧
    (s.params.valid = true → s.resetPin = false →
      arbitrate (Config.arbiterPick s.arbTurn) s.enabledPorts = some p →
      step s =
        exec i { s with ports := s.ports.put p rest, cmdPort := p, arbTurn := s.arbTurn + 1 })

/-- An illegal word at the head of a port is never held; the arbiter step at that port removes it,
emits `EV_ILLEGAL` with its cause and the whole word, and changes no other state (R192). The fields
`cmdPort` and `arbTurn` are the model's own (log entries 3 and 7). -/
def Obligations.IllegalWordIsReportedAndChangesNothing : Prop :=
  (illegalCauseCode .badOpcode = 1 ∧ illegalCauseCode .reservedNonzero = 2 ∧
    illegalCauseCode .slotRange = 3) ∧
  ∀ (s : State) (p : Port) (w : CmdWord) (rest : List CmdWord) (c : IllegalCause),
    s.ports.get p = w :: rest → decode w = .error c →
    s.enabledHead p = some w ∧
      stepPort p s =
        .next { s with
          ports := s.ports.put p rest
          cmdPort := p
          arbTurn := s.arbTurn + 1
          events := s.events ++ [⟨p, .illegal c w⟩] }

/-- Every head command is enabled except a legal `RX_BYTE` at a full ring under HOLD; the arbiter
picks an enabled port when there is one, and every enabled port is a possible pick (R206). That the
arbiter is a function of a free number is the model's choice (log entry 3), and so is that a count above
256, which R24 rules out, is treated as a full ring (log entry 20). -/
def Obligations.ArbiterMayPickEveryEnabledPort : Prop :=
  ∀ s : State,
    (∀ p, p ∈ s.enabledPorts ↔ ∃ w rest, s.ports.get p = w :: rest ∧
      ¬((∃ b, decode w = .ok (.rxByte b)) ∧ 256 ≤ s.rxCount.toNat ∧
        s.params.rxFullPolicy = .hold)) ∧
    (∀ p ∈ s.enabledPorts, ∃ k, arbitrate k s.enabledPorts = some p) ∧
    (∀ k p, arbitrate k s.enabledPorts = some p → p ∈ s.enabledPorts) ∧
    (s.enabledPorts ≠ [] → ∀ k, ∃ p, arbitrate k s.enabledPorts = some p)

/-- The step of the machine, with a legal configuration and no reset asserted, is the arbiter step of
an enabled port; with no enabled port the block waits and its state is held (R206, R214, R232; that
the step of a waiting block answers the same state is the model's reading, log entry 5, and
`resetPin` is the model's field for the reset input, log entry 6). -/
def Obligations.StepIsAnArbiterPickOrAWait : Prop :=
  ∀ s : State, s.params.valid = true → s.resetPin = false →
    (s.enabledPorts = [] → step s = .next s) ∧
    (s.enabledPorts ≠ [] → ∃ p ∈ s.enabledPorts, step s = stepPort p s)

/-- Per-port order is kept: an arbiter step takes the head of the picked port and leaves every other
queue as it is (R60, R206). -/
def Obligations.ArbiterStepKeepsPortOrder : Prop :=
  ∀ (p : Port) (s t : State), stepPort p s = .next t →
    (∀ q, q ≠ p → t.ports.get q = s.ports.get q) ∧
    (s.enabledHead p = none → t = s) ∧
    (∀ w, s.enabledHead p = some w → s.ports.get p = w :: t.ports.get p)

/-- R7: a configuration that breaks a constraint is refused and gets no run; every other one runs: its
step always answers a next state. That the check is made at every step, and that a waiting state's step
answers a next state, are the model's choices (log entries 10 and 5). -/
def Obligations.BadConfigurationGetsNoRun : Prop :=
  ∀ s : State,
    let legal := 1 ≤ s.params.tickMs ∧ s.params.tickMs ≤ 2 ^ 20 ∧ s.params.overdueMs ≤ 2 ^ 20 ∧
      s.params.backoffMinMs ≤ 2 ^ 30 ∧ 1 ≤ s.params.nt ∧ s.params.nt ≤ 256
    (¬legal → step s = .refused .configuration) ∧ (legal → ∃ t, step s = .next t)

/-- A stuck run makes no progress, and reset releases it: every port is then empty (R215, R230). Which
runs are stuck beside R215's own case, that a waiting step answers the same state and that a step reads
the reset input are the model's choices (log entries 22, 5 and 6). -/
def Obligations.StuckRunIsReleasedByReset : Prop :=
  ∀ s : State, s.params.valid = true → s.resetPin = false → s.stuck = true →
    step s = .next s ∧ ∃ t, step s.assertReset = .next t ∧ t.complete = true

/-! ### Reset -/

/-- The reset values of R44, for every configuration; the ring's contents are left unspecified. The
parameters of `State.reset` are R6's defaults. -/
def Obligations.ResetValuesOfR44 : Prop :=
  (∀ p : Params,
    let s := State.resetWith p
    s.rxHead = 0#8 ∧ s.rxCount = 0#9 ∧ s.fxData = 0#64 ∧ s.fxCur = 0#7 ∧ s.fxAbort = true ∧
      s.slots.length = p.nt ∧
      ∀ j < p.nt, s.slots[j]? = some ⟨false, 0#7, 0#8, 0#32, 0#32⟩) ∧
  State.reset = State.resetWith State.reset.params ∧
    State.reset.params.tickMs = 5 ∧ State.reset.params.overdueMs = 5 ∧
    State.reset.params.backoffMinMs = 1000 ∧ State.reset.params.rxFullPolicy = .hold

/-- The reset input sets every state item to its reset value of R44, empties all four ports (and so
discards a held `RX_BYTE`), and keeps the event stream as it was (R230). That the input is a bit the
next step reads and deasserts is the model's choice (log entry 6). -/
def Obligations.ResetInputResetsStateAndKeepsEvents : Prop :=
  ∀ s : State, s.params.valid = true → s.resetPin = true →
    ∃ t, step s = .next t ∧ t.rxHead = 0#8 ∧ t.rxCount = 0#9 ∧ t.fxData = 0#64 ∧ t.fxCur = 0#7 ∧
      t.fxAbort = true ∧ t.slots = List.replicate s.params.nt ⟨false, 0#7, 0#8, 0#32, 0#32⟩ ∧
      (∀ p, t.ports.get p = []) ∧ t.events = s.events ∧ t.params = s.params ∧ t.resetPin = false

/-- Straight after reset (R233): `RX_STEP`, `TMR_TICK` and `TMR_KICK` do nothing, `FX_TAKE` reports
ABORTED, `TX_SEND` and `ID_DECODE` report as ever. The spec marks R233 as its own inference, derived
from R44 and the commands' rules. -/
def Obligations.BehaviourStraightAfterReset : Prop :=
  ∀ (p : Params) (node : BitVec 7) (fidx len : BitVec 8) (data : BitVec 64) (id : BitVec 32),
    let s := State.resetWith p
    exec .rxStep s = .next s ∧ exec .tmrTick s = .next s ∧ exec (.tmrKick node fidx) s = .next s ∧
      exec (.fxTake len) s =
        .next { s with events := s.events ++ [⟨s.cmdPort, .fxError .aborted len 0#7⟩] } ∧
      exec (.idDecode id) s =
        .next { s with events := s.events ++ [⟨s.cmdPort, .idFields id (idFields id)⟩] } ∧
      exec (.txSend len data) s =
        .next { s with
          events := s.events ++ [⟨s.cmdPort, .txFrame
            (txFrameBytes (inetCksum (txPayload len data)) (txPayload len data))⟩] }

/-! ### Commands without state -/

/-- `NOP` completes, reads and writes no state and emits no event; of the words with opcode `0x00` only
the zero word is a `NOP`, every other one is illegal with cause RESERVED_NONZERO (R190). -/
def Obligations.NopChangesNothing : Prop :=
  (∀ s : State, exec .nop s = .next s) ∧
    ∀ w : CmdWord, w.toNat % 256 = 0x00 →
      decode w = if w = 0#96 then .ok .nop else .error .reservedNonzero

/-- `RX_ERROR`, opcode `0x03`, completes with one `EV_IO_ERROR` and no other change (R119). -/
def Obligations.RxErrorReportsAndKeepsTheRing : Prop :=
  encode .rxError = 0x03#96 ∧
    ∀ s : State, exec .rxError s = .next { s with events := s.events ++ [⟨s.cmdPort, .ioError⟩] }

/-- `ID_DECODE id`, opcode `0x20` with `id` in `d64[31:0]`, completes with one `EV_ID_FIELDS` carrying
`id[6:0]`, `id[10:7]` and `id[28:11]`, and no other change (R150, R151). -/
def Obligations.IdDecodeReportsTheThreeFields : Prop :=
  ∀ (s : State) (id : BitVec 32), ∃ f : IdFields,
    f.nodeId.toNat = id.toNat % 2 ^ 7 ∧ f.functionCode.toNat = id.toNat / 2 ^ 7 % 2 ^ 4 ∧
      f.extendedId.toNat = id.toNat / 2 ^ 11 % 2 ^ 18 ∧
      (encode (.idDecode id)).toNat = 0x20 + 2 ^ 32 * id.toNat ∧
      exec (.idDecode id) s =
        .next { s with events := s.events ++ [⟨s.cmdPort, .idFields id f⟩] }

/-- The identifier fields are adjacent cursor fields of lengths 7, 4 and 18 from bit 0, and the walk
of `id` with these lengths reports the same three values (R152, which the spec marks as its own
inference, derived from R150 and R153). -/
def Obligations.IdentifierFieldsAreCursorFields : Prop :=
  ∀ (s : State) (id : BitVec 32),
    let v0 := fxField (id.setWidth 64) 0 7
    let v1 := fxField (id.setWidth 64) 7 4
    let v2 := fxField (id.setWidth 64) 11 18
    (idFields id).nodeId.toNat = v0.toNat ∧ (idFields id).functionCode.toNat = v1.toNat ∧
      (idFields id).extendedId.toNat = v2.toNat ∧
      ∃ is t, (Pseudo.walk (id.setWidth 64) [7#8, 4#8, 18#8]).expand s.params = some is ∧
        execAll is s = .next t ∧
        t.events = s.events ++ tagged s.cmdPort
          [.fxValue v0 7#8 0#7, .fxValue v1 4#8 7#7, .fxValue v2 18#8 11#7]

/-! ### Checksum and byte order -/

/-- The views of a 12-byte payload are little-endian (R72, R52), and the checksum's words are the 16-bit
pieces of `id32` and `data64` (R53, an inference the spec marks as derived from R52 and R72). -/
def Obligations.PayloadViewsAreLittleEndian : Prop :=
  ∀ b0 b1 b2 b3 b4 b5 b6 b7 b8 b9 b10 b11 : Byte,
    let p := [b0, b1, b2, b3, b4, b5, b6, b7, b8, b9, b10, b11]
    let id := (payloadId32 p).toNat
    let d := (payloadData64 p).toNat
    id = b0.toNat + 2 ^ 8 * b1.toNat + 2 ^ 16 * b2.toNat + 2 ^ 24 * b3.toNat ∧
      d = b4.toNat + 2 ^ 8 * b5.toNat + 2 ^ 16 * b6.toNat + 2 ^ 24 * b7.toNat +
        2 ^ 32 * b8.toNat + 2 ^ 40 * b9.toNat + 2 ^ 48 * b10.toNat + 2 ^ 56 * b11.toNat ∧
      wordSum p = id % 2 ^ 16 + id / 2 ^ 16 + d % 2 ^ 16 + d / 2 ^ 16 % 2 ^ 16 +
        d / 2 ^ 32 % 2 ^ 16 + d / 2 ^ 48

/-- The two folds are exact (R102): for a sum below 2^32 the first fold is at most 0x1FFFE, the second
is a 16-bit value congruent to the sum modulo 0xFFFF, and it is 0 exactly when the sum is; up to 131070
bytes have a sum below 2^32, up to 12 bytes one of at most 0x5FFFA; and the checksum is the one's
complement of the folded sum. The spec marks R102 as its own inference, derived from R100. -/
def Obligations.ChecksumFoldsAreExact : Prop :=
  (∀ n : Nat, n < 2 ^ 32 →
    let folded := foldCarry (foldCarry n)
    foldCarry n ≤ 0x1FFFE ∧ folded ≤ 0xFFFF ∧ folded % 0xFFFF = n % 0xFFFF ∧
      (folded = 0 ↔ n = 0)) ∧
    ∀ p : List Byte, p.length ≤ 131070 →
      wordSum p < 2 ^ 32 ∧ (p.length ≤ 12 → wordSum p ≤ 0x5FFFA) ∧
        (inetCksum p).toNat = 0xFFFF - foldCarry (foldCarry (wordSum p))

/-- The checksum is 0 exactly for a nonzero multiple of 0xFFFF as word sum, and 0xFFFF exactly for an
all-zero input (R105(b)). -/
def Obligations.ChecksumZeroAndAllOnes : Prop :=
  ∀ p : List Byte, p.length ≤ 131070 →
    (inetCksum p = 0x0000#16 ↔ wordSum p ≠ 0 ∧ wordSum p % 0xFFFF = 0) ∧
      (inetCksum p = 0xFFFF#16 ↔ ∀ b ∈ p, b = 0#8)

/-- Flipping any single bit of the input changes the checksum (R105(d)). -/
def Obligations.ChecksumDetectsEveryBitFlip : Prop :=
  ∀ (p : List Byte) (j k : Nat) (b : Byte), p.length ≤ 131070 → p[j]? = some b → k < 8 →
    inetCksum (p.set j (b ^^^ (1#8 <<< k))) ≠ inetCksum p

/-- The checksum does not depend on the order of the words (R105(c)). -/
def Obligations.ChecksumIgnoresWordOrder : Prop :=
  ∀ ws ws' : List (Byte × Byte), ws.Perm ws' →
    inetCksum (ws.flatMap fun w => [w.1, w.2]) = inetCksum (ws'.flatMap fun w => [w.1, w.2])

/-! ### Receive framer -/

/-- `RX_BYTE b` below 256 unconsumed bytes completes: the byte joins the end of the unconsumed bytes
and is stored at `(rx_head + rx_count) mod 256`; every other ring byte and every other part of the
state is unchanged, and no event is emitted (R110). -/
def Obligations.RxByteAppendsOneByte : Prop :=
  ∀ (s : State) (b : Byte), s.rxCount.toNat < 256 →
    ∃ t, exec (.rxByte b) s = .next t ∧ t.unconsumed = s.unconsumed ++ [b] ∧
      t.rxCount.toNat = s.rxCount.toNat + 1 ∧
      t.rxbRead ((s.rxHead.toNat + s.rxCount.toNat) % 256) = b ∧
      (∀ a, a % 256 ≠ (s.rxHead.toNat + s.rxCount.toNat) % 256 → t.rxbRead a = s.rxbRead a) ∧
      t = { s with rxb := t.rxb, rxCount := t.rxCount }

/-- `RX_BYTE b` at a full ring (R111). Under DROP it is accepted, emits `EV_RX_DROP` and changes
nothing else. Under HOLD it is not accepted: it stays at the head of its port, nothing changes and no
event is emitted (the meaning itself answers the same state, log entry 4). -/
def Obligations.RxByteAtAFullRing : Prop :=
  ∀ (s : State) (b : Byte), s.rxCount.toNat = 256 →
    (s.params.rxFullPolicy = .hold →
      exec (.rxByte b) s = .next s ∧
      ∀ p rest, s.ports.get p = encode (.rxByte b) :: rest →
        s.enabledHead p = none ∧ stepPort p s = .next s) ∧
    (s.params.rxFullPolicy = .drop →
      exec (.rxByte b) s = .next { s with events := s.events ++ [⟨s.cmdPort, .rxDrop b⟩] } ∧
      ∀ p rest, s.ports.get p = encode (.rxByte b) :: rest →
        s.enabledHead p = some (encode (.rxByte b)))

/-- `RX_STEP` with no `0xFF` unconsumed (R114): up to 128 bytes nothing changes; more are discarded
together, without an event, and `rx_head` moves past them modulo 256 (R11). -/
def Obligations.RxStepDiscardsStaleNoise : Prop :=
  ∀ s : State, 0xFF#8 ∉ s.unconsumed →
    (s.rxCount.toNat ≤ 128 → exec .rxStep s = .next s) ∧
    (128 < s.rxCount.toNat → ∃ t, exec .rxStep s = .next t ∧ t.unconsumed = [] ∧
      t.rxCount = 0#9 ∧ t.rxHead.toNat = (s.rxHead.toNat + s.rxCount.toNat) % 256 ∧
      (∀ a, t.rxbRead a = s.rxbRead a) ∧
      t = { s with rxHead := t.rxHead, rxCount := t.rxCount })

/-- `RX_STEP` with a first `0xFF` followed by fewer than 14 bytes (R115): the bytes before it are
consumed without an event, `rx_head` moves past them modulo 256 (R11), and the `0xFF` stays at the
head. -/
def Obligations.RxStepAlignsAndWaits : Prop :=
  ∀ (s : State) (x y : List Byte), s.unconsumed = x ++ 0xFF#8 :: y → 0xFF#8 ∉ x → y.length < 14 →
    ∃ t, exec .rxStep s = .next t ∧ t.unconsumed = 0xFF#8 :: y ∧
      t.rxHead.toNat = (s.rxHead.toNat + x.length) % 256 ∧ (∀ a, t.rxbRead a = s.rxbRead a) ∧
      t = { s with rxHead := t.rxHead, rxCount := t.rxCount }

/-- `RX_STEP` with a first candidate whose checksum matches (R116): `EV_FRAME_OK` with the payload and
its views, and exactly the bytes up to the frame's end are consumed; `rx_head` moves past them modulo
256 (R11). -/
def Obligations.RxStepDeliversAValidFrame : Prop :=
  ∀ (s : State) (x p y : List Byte) (c0 c1 : Byte),
    s.unconsumed = x ++ 0xFF#8 :: c0 :: c1 :: (p ++ y) → 0xFF#8 ∉ x → p.length = 12 →
    (inetCksum p).toNat = c0.toNat + 256 * c1.toNat →
    ∃ t, exec .rxStep s = .next t ∧ t.unconsumed = y ∧
      t.rxHead.toNat = (s.rxHead.toNat + (x.length + 15)) % 256 ∧
      t.events = s.events ++ [⟨s.cmdPort, .frameOk p (payloadId32 p) (payloadData64 p)
        (idFields (payloadId32 p))⟩] ∧
      (∀ a, t.rxbRead a = s.rxbRead a) ∧
      t = { s with rxHead := t.rxHead, rxCount := t.rxCount, events := t.events }

/-- `RX_STEP` with a first candidate whose checksum differs (R117): `EV_FRAME_BAD` with the payload and
both checksums; the bytes up to the least `0xFF` of the 14-byte window are consumed, or all 15 when the
window holds none; `rx_head` moves past them modulo 256 (R11). -/
def Obligations.RxStepResynchronizesOnMismatch : Prop :=
  ∀ (s : State) (x p y : List Byte) (c0 c1 : Byte),
    s.unconsumed = x ++ 0xFF#8 :: c0 :: c1 :: (p ++ y) → 0xFF#8 ∉ x → p.length = 12 →
    (inetCksum p).toNat ≠ c0.toNat + 256 * c1.toNat →
    let kept := (c0 :: c1 :: p).dropWhile (fun b => b != 0xFF#8)
    ∃ t rxck, exec .rxStep s = .next t ∧ rxck.toNat = c0.toNat + 256 * c1.toNat ∧
      t.unconsumed = kept ++ y ∧
      t.rxHead.toNat = (s.rxHead.toNat + (x.length + 15 - kept.length)) % 256 ∧
      t.events = s.events ++ [⟨s.cmdPort, .frameBad p rxck (inetCksum p) (payloadId32 p)
        (payloadData64 p) (idFields (payloadId32 p))⟩] ∧
      (∀ a, t.rxbRead a = s.rxbRead a) ∧
      t = { s with rxHead := t.rxHead, rxCount := t.rxCount, events := t.events }

/-- Progress (R121): every `RX_STEP` leaves the state unchanged, exactly in the two wait states, or
consumes at least one byte; at 256 bytes it always consumes; and after `rx_count + 1` steps a further
one changes nothing. -/
def Obligations.RxStepProgressesOrWaits : Prop :=
  ∀ s : State,
    (∃ t, exec .rxStep s = .next t ∧
      (t = s ↔ (0xFF#8 ∉ s.unconsumed ∧ s.rxCount.toNat ≤ 128) ∨
        (s.unconsumed.head? = some 0xFF#8 ∧ s.rxCount.toNat < 15)) ∧
      (t ≠ s → t.rxCount.toNat < s.rxCount.toNat) ∧
      (s.rxCount.toNat = 256 → t.rxCount.toNat < 256)) ∧
    ∃ t, execAll (List.replicate (s.rxCount.toNat + 1) .rxStep) s = .next t ∧
      exec .rxStep t = .next t

/-- Neither `rx_head` nor any byte that is not unconsumed can be observed: what `RX_STEP` reports and
leaves unconsumed depends on the unconsumed bytes alone (R23, R25, R41). -/
def Obligations.RxStepSeesOnlyUnconsumedBytes : Prop :=
  ∀ s s' t t' : State, s.unconsumed = s'.unconsumed →
    exec .rxStep s = .next t → exec .rxStep s' = .next t' →
    t.unconsumed = t'.unconsumed ∧
      ∃ bodies, t.events = s.events ++ tagged s.cmdPort bodies ∧
        t'.events = s'.events ++ tagged s'.cmdPort bodies

/-- A frame with a correct checksum is reached behind any bytes `x` (R122): after at most `|x|` earlier
`RX_STEP`s one delivers a frame that ends inside the valid frame, and when it ends where the valid
frame ends, it is that frame. Nothing of the valid frame is consumed before. -/
def Obligations.ResynchronizationReachesTheValidFrame : Prop :=
  ∀ (s : State) (x p y : List Byte) (c0 c1 : Byte),
    s.unconsumed = x ++ 0xFF#8 :: c0 :: c1 :: (p ++ y) → p.length = 12 →
    (inetCksum p).toNat = c0.toNat + 256 * c1.toNat →
    ∃ n u t e, n ≤ x.length ∧ execAll (List.replicate n .rxStep) s = .next u ∧
      exec .rxStep u = .next t ∧ 15 + y.length ≤ u.unconsumed.length ∧
      t.events = u.events ++ [⟨s.cmdPort, e⟩] ∧ e.code = 0x01#8 ∧
      y.length ≤ t.unconsumed.length ∧ t.unconsumed.length < y.length + 15 ∧
      (t.unconsumed.length = y.length →
        e = .frameOk p (payloadId32 p) (payloadData64 p) (idFields (payloadId32 p)))

/-- A valid frame that arrives in two parts, with a parse step after each, is delivered exactly once,
wherever it is cut (R123; the source's split-arrival property E6). -/
def Obligations.SplitFrameIsDeliveredOnce : Prop :=
  ∀ (s : State) (p : List Byte) (c0 c1 : Byte) (n : Nat), s.rxCount = 0#9 → p.length = 12 →
    (inetCksum p).toNat = c0.toNat + 256 * c1.toNat →
    let f := 0xFF#8 :: c0 :: c1 :: p
    ∃ t, execAll ((f.take n).map .rxByte ++ [.rxStep] ++ (f.drop n).map .rxByte ++ [.rxStep]) s =
        .next t ∧ t.unconsumed = [] ∧
      t.events = s.events ++ [⟨s.cmdPort, .frameOk p (payloadId32 p) (payloadData64 p)
        (idFields (payloadId32 p))⟩]

/-- Split arrival (R123): as long as no `RX_BYTE` meets a full ring, how the inbound bytes are divided
among `RX_STEP`s does not change which events are emitted or their order, once enough `RX_STEP`s
follow the last byte. -/
def Obligations.DivisionAmongStepsDoesNotMatter : Prop :=
  ∀ (s : State) (l l' : List Instr), s.rxCount.toNat ≤ 256 →
    (∀ i ∈ l ++ l', i = .rxStep ∨ ∃ b, i = .rxByte b) → linkBytes l = linkBytes l' →
    NeverFull l s → NeverFull l' s →
    ∃ t t', execAll (l ++ List.replicate 257 .rxStep) s = .next t ∧
      execAll (l' ++ List.replicate 257 .rxStep) s = .next t' ∧ t.events = t'.events

/-! ### Send framer -/

/-- `TX_SEND len, data`, opcode `0x10`, completes with one `EV_TX_FRAME` of 11 bytes: `0xFF`, the checksum of the
eight data bytes with its low byte first, and the data bytes, zero at index `len` and above; nothing
else changes (R140, R142). -/
def Obligations.TxSendEmitsTheChecksummedFrame : Prop :=
  ∀ (s : State) (len : BitVec 8) (data : BitVec 64), ∃ (q : List Byte) (lo hi : Byte),
    q.length = 8 ∧
      (∀ k < 8, q[k]? =
        some (if k < len.toNat then BitVec.ofNat 8 (data.toNat / 256 ^ k % 256) else 0#8)) ∧
      lo.toNat + 256 * hi.toNat = (inetCksum q).toNat ∧
      (encode (.txSend len data)).toNat = 0x10 + 2 ^ 8 * len.toNat + 2 ^ 32 * data.toNat ∧
      exec (.txSend len data) s =
        .next { s with
          events := s.events ++ [⟨s.cmdPort, .txFrame (0xFF#8 :: lo :: hi :: q)⟩] }

/-- The pseudo-command SEND pads a byte vector with zeros, or truncates it, to exactly 8 bytes and
sends their frame (R88, R141). -/
def Obligations.SendPadsOrTruncatesToEightBytes : Prop :=
  ∀ (s : State) (v : List Byte), ∃ is lo hi,
    let q := (v ++ List.replicate 8 0#8).take 8
    (Pseudo.send v).expand s.params = some is ∧ lo.toNat + 256 * hi.toNat = (inetCksum q).toNat ∧
      execAll is s =
        .next { s with
          events := s.events ++ [⟨s.cmdPort, .txFrame (0xFF#8 :: lo :: hi :: q)⟩] }

/-- The outbound stream grows by exactly the 11 contiguous bytes of a `TX_SEND`, and by nothing for
any other command (R51, R143). -/
def Obligations.OutboundStreamGrowsByWholeFrames : Prop :=
  ∀ (i : Instr) (s t : State), exec i s = .next t →
    (∀ len data, i = .txSend len data → ∃ bytes, bytes.length = 11 ∧
      outboundBytes t.events = outboundBytes s.events ++ bytes) ∧
    ((∀ len data, i ≠ .txSend len data) → outboundBytes t.events = outboundBytes s.events)

/-- The block's own receive framer never delivers an outbound frame: fed its 11 bytes, it waits for
four more (R145, E4, 90_conflicts.md C5). -/
def Obligations.OwnReceiverWaitsOnAnOutboundFrame : Prop :=
  ∀ (s : State) (len : BitVec 8) (data : BitVec 64) (n : Nat), s.rxCount = 0#9 →
    ∃ bytes t,
      exec (.txSend len data) s =
        .next { s with events := s.events ++ [⟨s.cmdPort, .txFrame bytes⟩] } ∧
      execAll (bytes.map .rxByte ++ List.replicate n .rxStep) s = .next t ∧
      t.events = s.events ∧ t.unconsumed = bytes

/-! ### Extractor -/

/-- `FX_LOAD data`, opcode `0x21`, completes: the word, cursor 0, abort flag clear, nothing else, no event (R155). -/
def Obligations.FxLoadStartsAWalk : Prop :=
  ∀ (s : State) (data : BitVec 64),
    (encode (.fxLoad data)).toNat = 0x21 + 2 ^ 32 * data.toNat ∧
      exec (.fxLoad data) s = .next { s with fxData := data, fxCur := 0#7, fxAbort := false }

/-- `FX_TAKE len`, opcode `0x22` (R156): ABORTED first, then INVALID_LEN, then OVERFLOW; otherwise the value
`(fx_data >> fx_cur) & (2^len - 1)` and the cursor moves by `len`. Nothing else changes. -/
def Obligations.FxTakeReportsAFieldOrTheFirstError : Prop :=
  ∀ (s : State) (len : BitVec 8),
    (encode (.fxTake len)).toNat = 0x22 + 2 ^ 8 * len.toNat ∧
    if s.fxAbort = true then
      exec (.fxTake len) s =
        .next { s with events := s.events ++ [⟨s.cmdPort, .fxError .aborted len s.fxCur⟩] }
    else if 32 < len.toNat then
      exec (.fxTake len) s =
        .next { s with
          fxAbort := true
          events := s.events ++ [⟨s.cmdPort, .fxError .invalidLen len s.fxCur⟩] }
    else if 64 < s.fxCur.toNat + len.toNat then
      exec (.fxTake len) s =
        .next { s with
          fxAbort := true
          events := s.events ++ [⟨s.cmdPort, .fxError .overflow len s.fxCur⟩] }
    else
      ∃ (v : BitVec 32) (c : BitVec 7),
        v.toNat = s.fxData.toNat / 2 ^ s.fxCur.toNat % 2 ^ len.toNat ∧
        c.toNat = s.fxCur.toNat + len.toNat ∧
        exec (.fxTake len) s =
          .next { s with
            fxCur := c
            events := s.events ++ [⟨s.cmdPort, .fxValue v len s.fxCur⟩] }

/-- A walk whose lengths are valid and sum to exactly 64 reports one value per field and no error,
ends at cursor 64, and the values reassemble the word (R158(a), R158(b)). -/
def Obligations.WalkOfSixtyFourBitsReassemblesTheWord : Prop :=
  ∀ (s : State) (data : BitVec 64) (lens : List (BitVec 8)),
    (∀ len ∈ lens, len.toNat ≤ 32) → (lens.map BitVec.toNat).sum = 64 →
    ∃ t bodies, execAll (.fxLoad data :: lens.map .fxTake) s = .next t ∧
      t.fxCur = 64#7 ∧ t.fxAbort = false ∧ t.events = s.events ++ tagged s.cmdPort bodies ∧
      bodies.length = lens.length ∧ valueLengths bodies = lens ∧
      reassembled bodies = data.toNat

/-- A walk that runs past bit 64 reports a value for every field that fits, the bits of the word from
the cursor the earlier lengths add up to, then one OVERFLOW, then ABORTED for every later field (R153,
R157, R158(c)). -/
def Obligations.WalkPastTheEndOverflowsOnceThenAborts : Prop :=
  ∀ (s : State) (data : BitVec 64) (before after : List (BitVec 8)) (len : BitVec 8),
    (∀ l ∈ before, l.toNat ≤ 32) → len.toNat ≤ 32 →
    (before.map BitVec.toNat).sum ≤ 64 → 64 < (before.map BitVec.toNat).sum + len.toNat →
    ∃ t bodies c, execAll (.fxLoad data :: (before ++ len :: after).map .fxTake) s = .next t ∧
      c.toNat = (before.map BitVec.toNat).sum ∧ t.fxData = data ∧ t.fxCur = c ∧ t.fxAbort = true ∧
      (∀ (k : Nat) (l : BitVec 8), before[k]? = some l → ∃ (v : BitVec 32) (ck : BitVec 7),
        bodies[k]? = some (.fxValue v l ck) ∧ ck.toNat = ((before.take k).map BitVec.toNat).sum ∧
        v.toNat = data.toNat / 2 ^ ck.toNat % 2 ^ l.toNat) ∧
      valueLengths bodies = before ∧ bodies.length = before.length ∧
      t.events = s.events ++ tagged s.cmdPort
        (bodies ++ .fxError .overflow len c :: after.map fun l => .fxError .aborted l c)

/-! ### Liveness timer -/

/-- `TMR_CONFIG`, opcode `0x30` (R172): with `slot < NT` it completes, writes all five fields of that
slot and seeds the countdown with the full timeout; every other slot and every other part of the state
is unchanged, and no event is emitted. With `slot >= NT` it is illegal and changes nothing; that the
meaning itself makes this check and reports the command's encoding is the model's choice (log
entry 11). -/
def Obligations.TmrConfigWritesAndSeedsOneSlot : Prop :=
  ∀ (s : State) (slot : BitVec 8) (node : BitVec 7) (fidx : BitVec 8) (tmo : BitVec 32),
    s.slots.length = s.params.nt →
    let i := Instr.tmrConfig slot node fidx tmo
    (encode i).toNat = 0x30 + 2 ^ 8 * slot.toNat + 2 ^ 16 * node.toNat + 2 ^ 24 * fidx.toNat +
        2 ^ 32 * tmo.toNat ∧
      (slot.toNat < s.params.nt →
        ∃ t, exec i s = .next t ∧ t = { s with slots := t.slots } ∧
          t.slots.length = s.slots.length ∧
          t.slots[slot.toNat]? = some ⟨true, node, fidx, tmo, tmo⟩ ∧
          ∀ j, j ≠ slot.toNat → t.slots[j]? = s.slots[j]?) ∧
      (s.params.nt ≤ slot.toNat →
        exec i s =
          .next { s with events := s.events ++ [⟨s.cmdPort, .illegal .slotRange (encode i)⟩] })

/-- A `TMR_CONFIG` word with `slot >= NT` is illegal with cause SLOT_RANGE: one `EV_ILLEGAL` with the
whole word, and no other change (R84, the third check of R191). Where the model makes the check is its
own choice (log entry 11). -/
def Obligations.TmrConfigOfAMissingSlotIsIllegal : Prop :=
  ∀ (s : State) (w : CmdWord) (slot : BitVec 8) (node : BitVec 7) (fidx : BitVec 8)
    (tmo : BitVec 32),
    decode w = .ok (.tmrConfig slot node fidx tmo) → s.params.nt ≤ slot.toNat →
    runWord w s = .next { s with events := s.events ++ [⟨s.cmdPort, .illegal .slotRange w⟩] }

/-- `TMR_KICK`, opcode `0x31`, completes: every active slot with the key is reloaded with its timeout, every other slot
and every other part of the state is unchanged, and no event is emitted (R175). -/
def Obligations.TmrKickReloadsEveryActiveMatch : Prop :=
  ∀ (s : State) (node : BitVec 7) (fidx : BitVec 8),
    (encode (.tmrKick node fidx)).toNat = 0x31 + 2 ^ 16 * node.toNat + 2 ^ 24 * fidx.toNat ∧
    ∃ t, exec (.tmrKick node fidx) s = .next t ∧ t = { s with slots := t.slots } ∧
      t.slots.length = s.slots.length ∧
      ∀ (j : Nat) (sl : Slot), s.slots[j]? = some sl →
        t.slots[j]? = some (if sl.valid = true ∧ 0 < sl.tmo.toInt ∧ sl.node = node ∧ sl.fidx = fidx
          then { sl with rem := sl.tmo } else sl)

/-- `TMR_TICK`, opcode `0x32`, completes (R178): every active slot is decremented by TICK_MS, or, when that leaves it
below -OVERDUE_MS, reloaded with `max(slot_tmo, BACKOFF_MIN_MS)`; the alerts come in ascending slot
order; nothing else changes. The premises are those of the invariant (R7, R32). -/
def Obligations.TmrTickCountsDownAlertsAndBacksOff : Prop :=
  ∀ s : State, s.params.valid = true →
    (∀ sl ∈ s.slots, sl.valid = true → 0 < sl.tmo.toInt →
      -(s.params.overdueMs : Int) ≤ sl.rem.toInt ∧
        sl.rem.toInt ≤ max sl.tmo.toInt (s.params.backoffMinMs : Int)) →
    encode .tmrTick = 0x32#96 ∧
    ∃ t, exec .tmrTick s = .next t ∧
      t = { s with slots := t.slots, events := t.events } ∧ t.slots.length = s.slots.length ∧
      (∀ (j : Nat) (sl : Slot), s.slots[j]? = some sl →
        if sl.valid = true ∧ 0 < sl.tmo.toInt then
          ∃ r : BitVec 32, t.slots[j]? = some { sl with rem := r } ∧
            r.toInt =
              if sl.rem.toInt - s.params.tickMs < -(s.params.overdueMs : Int)
              then max sl.tmo.toInt (s.params.backoffMinMs : Int)
              else sl.rem.toInt - s.params.tickMs
        else t.slots[j]? = some sl) ∧
      t.events = s.events ++ tagged s.cmdPort
        (s.slots.zipIdx.filterMap fun x =>
          if x.1.valid = true ∧ 0 < x.1.tmo.toInt ∧
              x.1.rem.toInt - s.params.tickMs < -(s.params.overdueMs : Int)
          then some (.tmrAlert (BitVec.ofNat 8 x.2) x.1.node x.1.fidx) else none)

/-- The alert timing law (R180): an active slot at remaining time `V`, sent only ticks, counts down
without an alert for `N(V) - 1` ticks, `N(V) = floor((V + OVERDUE_MS) / TICK_MS) + 1`, and alerts
exactly once on tick `N(V)`, which reloads it with `max(slot_tmo, BACKOFF_MIN_MS)`. With the defaults
`N(200) = 42` and `N(1000) = 202`. -/
def Obligations.SlotAlertsOnTickNOfV : Prop :=
  alertTick Params.default 200 = 42 ∧ alertTick Params.default 1000 = 202 ∧
  ∀ (s : State) (j : Nat) (sl : Slot), s.Inv → s.slots[j]? = some sl → sl.active = true →
    let n := alertTick s.params sl.rem.toInt
    (∀ k < n, ∃ t bodies r, execAll (List.replicate k .tmrTick) s = .next t ∧
      t.events = s.events ++ tagged s.cmdPort bodies ∧ alertCount j bodies = 0 ∧
      t.slots[j]? = some { sl with rem := r } ∧
      r.toInt = sl.rem.toInt - k * s.params.tickMs) ∧
    ∃ t bodies r, execAll (List.replicate n .tmrTick) s = .next t ∧
      t.events = s.events ++ tagged s.cmdPort bodies ∧ alertCount j bodies = 1 ∧
      t.slots[j]? = some { sl with rem := r } ∧
      r.toInt = max sl.tmo.toInt (s.params.backoffMinMs : Int)

/-- The race of a kick and a tick of one slot (R181, R62): kick first leaves `slot_tmo - TICK_MS`, or
the backoff value when that is overdue; tick first leaves `slot_tmo`. -/
def Obligations.KickAndTickRaceHasTwoOutcomes : Prop :=
  ∀ (s : State) (j : Nat) (sl : Slot), s.Inv → s.slots[j]? = some sl → sl.active = true →
    (∃ t r, execAll [.tmrKick sl.node sl.fidx, .tmrTick] s = .next t ∧
      t.slots[j]? = some { sl with rem := r } ∧
      r.toInt =
        if sl.tmo.toInt < s.params.tickMs - s.params.overdueMs
        then max sl.tmo.toInt (s.params.backoffMinMs : Int)
        else sl.tmo.toInt - s.params.tickMs) ∧
    ∃ t, execAll [.tmrTick, .tmrKick sl.node sl.fidx] s = .next t ∧
      t.slots[j]? = some { sl with rem := sl.tmo }

/-- The SEED pseudo-command (R88, R236): with at most `NT` entries it gives each entry its own slot
from slot 0 on and touches no other slot; with more it is refused. -/
def Obligations.SeedConfiguresTheFirstSlotsInOrder : Prop :=
  ∀ (s : State) (entries : List (BitVec 7 × BitVec 8 × BitVec 32)),
    s.slots.length = s.params.nt → s.params.nt ≤ 256 →
    (s.params.nt < entries.length → (Pseudo.seed entries).expand s.params = none) ∧
    (entries.length ≤ s.params.nt →
      ∃ is t, (Pseudo.seed entries).expand s.params = some is ∧ execAll is s = .next t ∧
        t = { s with slots := t.slots } ∧ t.slots.length = s.slots.length ∧
        (∀ (j : Nat) (node : BitVec 7) (fidx : BitVec 8) (tmo : BitVec 32),
          entries[j]? = some (node, fidx, tmo) →
          t.slots[j]? = some ⟨true, node, fidx, tmo, tmo⟩) ∧
        ∀ j, entries.length ≤ j → t.slots[j]? = s.slots[j]?)

/-! ### The whole block -/

/-- Every command completes in one step: no command faults, is refused or waits inside the block (R64,
R203). For an `RX_BYTE` at a full ring under HOLD, which R111 does not accept, the next state is the
model's choice (log entry 4); that no fault exists is its reading of R203 (log entry 21). -/
def Obligations.EveryCommandCompletesInOneStep : Prop :=
  ∀ (i : Instr) (s : State), ∃ t, exec i s = .next t

/-- The event stream is append-only, also over reset, and every record an arbiter step adds is tagged
with the picked port (R200). -/
def Obligations.EventStreamIsAppendOnlyAndTagged : Prop :=
  (∀ s t : State, step s = .next t → ∃ more, t.events = s.events ++ more) ∧
    ∀ (p : Port) (s t : State), stepPort p s = .next t →
      ∃ bodies, t.events = s.events ++ tagged p bodies

/-- Every command is legal on every port and has the same meaning there: only the tag of its events
differs (R207, R210). -/
def Obligations.CommandMeansTheSameOnEveryPort : Prop :=
  ∀ (i : Instr) (s t : State) (q : Port), exec i s = .next t →
    ∃ bodies, t.events = s.events ++ tagged s.cmdPort bodies ∧
      exec i { s with cmdPort := q } =
        .next { t with cmdPort := q, events := s.events ++ tagged q bodies }

/-- Each state item is written only by the commands R20 lists for it; no command writes the parameters
(R39), the ports, the reset input or the model's own fields `cmdPort` and `arbTurn` (log entries 6, 7
and 3). -/
def Obligations.StateIsWrittenOnlyByItsCommands : Prop :=
  ∀ (i : Instr) (s t : State), exec i s = .next t →
    (t.rxb = s.rxb ∨ ∃ b, i = .rxByte b) ∧
    (t.rxHead = s.rxHead ∨ i = .rxStep) ∧
    (t.rxCount = s.rxCount ∨ i = .rxStep ∨ ∃ b, i = .rxByte b) ∧
    (t.slots.map (fun sl => (sl.valid, sl.node, sl.fidx, sl.tmo)) =
        s.slots.map (fun sl => (sl.valid, sl.node, sl.fidx, sl.tmo)) ∨
      ∃ slot node fidx tmo, i = .tmrConfig slot node fidx tmo) ∧
    (t.slots = s.slots ∨ i = .tmrTick ∨ (∃ node fidx, i = .tmrKick node fidx) ∨
      ∃ slot node fidx tmo, i = .tmrConfig slot node fidx tmo) ∧
    (t.fxData = s.fxData ∨ ∃ data, i = .fxLoad data) ∧
    (t.fxCur = s.fxCur ∨ (∃ data, i = .fxLoad data) ∨ ∃ len, i = .fxTake len) ∧
    (t.fxAbort = s.fxAbort ∨ (∃ data, i = .fxLoad data) ∨ ∃ len, i = .fxTake len) ∧
    t.params = s.params ∧ t.ports = s.ports ∧ t.resetPin = s.resetPin ∧ t.cmdPort = s.cmdPort ∧
    t.arbTurn = s.arbTurn

/-- The flags (R38): only `FX_LOAD` clears `fx_abort` and only `FX_TAKE` sets it; only `TMR_CONFIG` sets
`slot_valid`, and only that of the slot it names; no command clears `slot_valid`. -/
def Obligations.FlagsChangeOnlyAsR38Says : Prop :=
  ∀ (i : Instr) (s t : State), exec i s = .next t →
    (s.fxAbort = true → t.fxAbort = false → ∃ data, i = .fxLoad data) ∧
    (s.fxAbort = false → t.fxAbort = true → ∃ len, i = .fxTake len) ∧
    (∀ (j : Nat) (sl sl' : Slot), s.slots[j]? = some sl → t.slots[j]? = some sl' →
      sl.valid = false → sl'.valid = true →
      ∃ slot node fidx tmo, i = .tmrConfig slot node fidx tmo ∧ slot.toNat = j) ∧
    ∀ (j : Nat) (sl : Slot), s.slots[j]? = some sl → sl.valid = true →
      ∃ sl' : Slot, t.slots[j]? = some sl' ∧ sl'.valid = true

/-- The invariant holds right after reset, for every configuration that satisfies R7. -/
def Obligations.InvariantHoldsAtReset : Prop :=
  (∀ p : Params, p.valid = true → (State.resetWith p).Inv) ∧ State.reset.Inv

/-- Every step keeps the invariant: the ring's canonical form, `rx_count <= 256` (R24), every
unconsumed byte written since reset (93 I7), `NT` slots, the range of R32 for active slots, and the
cursor at most 64 (R158(d)). -/
def Obligations.StepKeepsTheInvariant : Prop :=
  ∀ s t : State, s.Inv → step s = .next t → t.Inv

/-- The invariant holds in every reachable state, under every interleaving the arbiter may choose and
with reset at any moment between two commands (R24, R32, R60, R230). -/
def Obligations.EveryReachableStateHasTheInvariant : Prop :=
  ∀ (p : Params) (s : State), p.valid = true → Reachable p s → s.Inv

/-- The assembler (R87), for every form and every operand: which operands give which command, each
unsigned one without a `-` sign and inside its field's range, `tmo` in -2^31 .. 2^31-1; all other
operands do not assemble. Every command is assembled from some operands, and what is assembled has the
mnemonic's opcode. That a wrong number of operands does not assemble is the model's reading of R87's
forms (log entry 15). -/
def Obligations.AssemblerReachesEveryCommandAndChecksRanges : Prop :=
  let unsigned (n : Nat) (o : AsmOperand) : Prop := o.negative = false ∧ o.magnitude < 2 ^ n
  let operandCounts : List (Opcode × Nat) :=
    [(.nop, 0), (.rxByte, 1), (.rxStep, 0), (.rxError, 0), (.txSend, 2), (.idDecode, 1), (.fxLoad, 1),
      (.fxTake, 1), (.tmrConfig, 4), (.tmrKick, 2), (.tmrTick, 0)]
  (∀ i : Instr, ∃ os, assemble i.opcode os = some i) ∧
    (∀ op os i, assemble op os = some i → i.opcode = op) ∧
    (∀ row ∈ operandCounts, ∀ os, os.length ≠ row.2 → assemble row.1 os = none) ∧
    (assemble .nop [] = some .nop ∧ assemble .rxStep [] = some .rxStep ∧
      assemble .rxError [] = some .rxError ∧ assemble .tmrTick [] = some .tmrTick) ∧
    ∀ (a b c d : AsmOperand) (i : Instr),
      (assemble .rxByte [a] = some i ↔
        unsigned 8 a ∧ i = .rxByte (BitVec.ofNat 8 a.magnitude)) ∧
      (assemble .txSend [a, b] = some i ↔ unsigned 8 a ∧ unsigned 64 b ∧
        i = .txSend (BitVec.ofNat 8 a.magnitude) (BitVec.ofNat 64 b.magnitude)) ∧
      (assemble .idDecode [a] = some i ↔
        unsigned 32 a ∧ i = .idDecode (BitVec.ofNat 32 a.magnitude)) ∧
      (assemble .fxLoad [a] = some i ↔
        unsigned 64 a ∧ i = .fxLoad (BitVec.ofNat 64 a.magnitude)) ∧
      (assemble .fxTake [a] = some i ↔
        unsigned 8 a ∧ i = .fxTake (BitVec.ofNat 8 a.magnitude)) ∧
      (assemble .tmrConfig [a, b, c, d] = some i ↔
        unsigned 8 a ∧ unsigned 7 b ∧ unsigned 8 c ∧ ∃ tmo : BitVec 32,
          tmo.toInt = (if d.negative then -(d.magnitude : Int) else (d.magnitude : Int)) ∧
          i = .tmrConfig (BitVec.ofNat 8 a.magnitude) (BitVec.ofNat 7 b.magnitude)
            (BitVec.ofNat 8 c.magnitude) tmo) ∧
      (assemble .tmrKick [a, b] = some i ↔ unsigned 7 a ∧ unsigned 8 b ∧
        i = .tmrKick (BitVec.ofNat 7 a.magnitude) (BitVec.ofNat 8 b.magnitude))

/-- The event codes of R201 and the cause codes of R202, and which command emits which of them (the
table of R201). That `EV_ILLEGAL` comes from the meaning of `TMR_CONFIG` is the model's choice (log
entry 11). -/
def Obligations.EventsHaveTheCodesOfR201AndR202 : Prop :=
  (∀ p i d f, (EventBody.frameOk p i d f).code = 0x01#8) ∧
    (∀ p rxck ck i d f, (EventBody.frameBad p rxck ck i d f).code = 0x02#8) ∧
    EventBody.ioError.code = 0x03#8 ∧ (∀ b, (EventBody.rxDrop b).code = 0x04#8) ∧
    (∀ bytes, (EventBody.txFrame bytes).code = 0x05#8) ∧
    (∀ i f, (EventBody.idFields i f).code = 0x06#8) ∧
    (∀ v len cur, (EventBody.fxValue v len cur).code = 0x07#8) ∧
    (∀ cause len cur, (EventBody.fxError cause len cur).code = 0x08#8) ∧
    (∀ slot node fidx, (EventBody.tmrAlert slot node fidx).code = 0x09#8) ∧
    (∀ cause w, (EventBody.illegal cause w).code = 0x0A#8) ∧
    (FxCause.invalidLen.code = 1 ∧ FxCause.overflow.code = 2 ∧ FxCause.aborted.code = 3) ∧
    (illegalCauseCode .badOpcode = 1 ∧ illegalCauseCode .reservedNonzero = 2 ∧
      illegalCauseCode .slotRange = 3) ∧
    ∀ (i : Instr) (s t : State), exec i s = .next t →
      let codes : List (BitVec 8) :=
        match i.opcode with
        | .nop => []
        | .rxByte => [0x04#8]
        | .rxStep => [0x01#8, 0x02#8]
        | .rxError => [0x03#8]
        | .txSend => [0x05#8]
        | .idDecode => [0x06#8]
        | .fxLoad => []
        | .fxTake => [0x07#8, 0x08#8]
        | .tmrConfig => [0x0A#8]
        | .tmrKick => []
        | .tmrTick => [0x09#8]
      ∃ bodies, t.events = s.events ++ tagged s.cmdPort bodies ∧ ∀ body ∈ bodies, body.code ∈ codes
end

