-- ==== Sys2Proof/Laws/Asm.lean ====
section
/-! SUPPORT. What the assembler accepts as an operand, one lemma per kind of operand (R87). -/

namespace Sys2Proof.Machine

/-- An unsigned operand assembles exactly when it has no sign and is inside its field's range. -/
theorem asmUnsigned_eq_some {n : Nat} {o : AsmOperand} {v : BitVec n} :
    asmUnsigned n o = some v ↔
      (o.negative = false ∧ o.magnitude < 2 ^ n) ∧ v = BitVec.ofNat n o.magnitude := by
  unfold asmUnsigned
  by_cases h : o.negative = false ∧ o.magnitude < 2 ^ n
  · simp [h]
    exact eq_comm
  · have hn : ¬(!o.negative && decide (o.magnitude < 2 ^ n)) = true := by simpa using h
    rw [if_neg hn]
    simp only [reduceCtorEq, false_iff]
    tauto

/-- The operand that writes a field's value out assembles to that value. -/
theorem asmUnsigned_toNat {n : Nat} (v : BitVec n) : asmUnsigned n ⟨false, v.toNat⟩ = some v := by
  rw [asmUnsigned_eq_some]
  simp [v.isLt]

/-- A 32-bit signed value in range is kept. -/
theorem toInt_ofInt_of_range {v : Int} (h : -2 ^ 31 ≤ v) (h' : v < 2 ^ 31) :
    (BitVec.ofInt 32 v).toInt = v := by
  rw [BitVec.toInt_ofInt]
  simp [Int.bmod]
  omega

/-- `tmo` assembles exactly to the 32-bit value it writes, and not at all when there is none. -/
theorem asmTmo_eq_some {o : AsmOperand} {v : BitVec 32} :
    asmTmo o = some v ↔
      v.toInt = if o.negative then -(o.magnitude : Int) else (o.magnitude : Int) := by
  have h1 := v.toInt_lt
  have h2 := v.le_toInt
  unfold asmTmo
  cases o.negative
  · simp only [Bool.false_eq_true, if_false]
    split
    · have he : (BitVec.ofNat 32 o.magnitude).toInt = o.magnitude := by
        rw [← BitVec.ofInt_natCast]
        exact toInt_ofInt_of_range (by omega) (by omega)
      rw [Option.some_inj, ← BitVec.toInt_inj, he]
      exact eq_comm
    · simp
      omega
  · simp only [if_true]
    split
    · have he := toInt_ofInt_of_range (v := -(o.magnitude : Int)) (by omega) (by omega)
      rw [Option.some_inj, ← BitVec.toInt_inj, he]
      exact eq_comm
    · simp
      omega

end Sys2Proof.Machine
end

