-- ==== Sys2Proof/Laws/Bytes.lean ====
section
/-! SUPPORT. Byte order, command words and the checksum's parts as arithmetic. -/

namespace Sys2Proof.Machine

/-- A byte put above `k` bits of lower value is an addition. -/
theorem or_shifted_byte {x k : Nat} (hx : x < 2 ^ k) (b : Nat) :
    x ||| b <<< k = x + 2 ^ k * b := by
  rw [Nat.or_comm, Nat.shiftLeft_eq, Nat.mul_comm b, ← Nat.two_pow_add_eq_or_of_lt hx]
  omega

/-- One more field, `m` bits wide, above the `k` bits already put together. -/
theorem toNat_or_shifted {n m : Nat} (v : BitVec n) (b : BitVec m) (k : Nat) (hv : v.toNat < 2 ^ k)
    (hk : k + m ≤ n) :
    (v ||| b.setWidth n <<< k).toNat = v.toNat + 2 ^ k * b.toNat ∧
      (v ||| b.setWidth n <<< k).toNat < 2 ^ (k + m) := by
  have hb := b.isLt
  have hm' : (2 : Nat) ^ m ≤ 2 ^ n := Nat.pow_le_pow_right (by omega) (by omega)
  have hkn : (2 : Nat) ^ (k + m) ≤ 2 ^ n := Nat.pow_le_pow_right (by omega) hk
  have hp : (2 : Nat) ^ (k + m) = 2 ^ k * 2 ^ m := Nat.pow_add 2 k m
  have hm : 2 ^ k * b.toNat < 2 ^ (k + m) := by
    rw [hp]
    exact Nat.mul_lt_mul_of_pos_left hb (Nat.two_pow_pos k)
  have hle : 2 ^ k * b.toNat + 2 ^ k ≤ 2 ^ (k + m) := by
    rw [hp, ← Nat.mul_succ]
    exact Nat.mul_le_mul_left _ hb
  have hbn : b.toNat < 2 ^ n := Nat.lt_of_lt_of_le hb hm'
  have hs : (b.setWidth n <<< k).toNat = b.toNat <<< k := by
    rw [BitVec.toNat_shiftLeft, BitVec.toNat_setWidth, Nat.mod_eq_of_lt hbn, Nat.mod_eq_of_lt]
    rw [Nat.shiftLeft_eq, Nat.mul_comm]
    exact Nat.lt_of_lt_of_le hm hkn
  rw [BitVec.toNat_or, hs, or_shifted_byte hv]
  exact ⟨rfl, by omega⟩

/-- A zero-extended byte keeps its value. -/
theorem toNat_byte_setWidth {n : Nat} (b : Byte) (hn : 8 ≤ n) : (b.setWidth n).toNat = b.toNat := by
  have h8 : (2 : Nat) ^ 8 ≤ 2 ^ n := Nat.pow_le_pow_right (by omega) hn
  have := b.isLt
  rw [BitVec.toNat_setWidth, Nat.mod_eq_of_lt (by omega)]

/-- `le16` as a number (R10). -/
theorem le16_toNat (b0 b1 : Byte) : (le16 b0 b1).toNat = b0.toNat + 2 ^ 8 * b1.toNat := by
  have h0 := toNat_byte_setWidth (n := 16) b0 (by omega)
  have h1 := toNat_or_shifted (b0.setWidth 16) b1 8 (h0 ▸ b0.isLt) (by omega)
  rw [le16, h1.1, h0]

/-- `le32` as a number (R10). -/
theorem le32_toNat (b0 b1 b2 b3 : Byte) :
    (le32 b0 b1 b2 b3).toNat =
      b0.toNat + 2 ^ 8 * b1.toNat + 2 ^ 16 * b2.toNat + 2 ^ 24 * b3.toNat := by
  have h0 := toNat_byte_setWidth (n := 32) b0 (by omega)
  have h1 := toNat_or_shifted (b0.setWidth 32) b1 8 (h0 ▸ b0.isLt) (by omega)
  have h2 := toNat_or_shifted _ b2 16 h1.2 (by omega)
  have h3 := toNat_or_shifted _ b3 24 h2.2 (by omega)
  rw [le32, h3.1, h2.1, h1.1, h0]

/-- `le64` as a number (R10). -/
theorem le64_toNat (b0 b1 b2 b3 b4 b5 b6 b7 : Byte) :
    (le64 b0 b1 b2 b3 b4 b5 b6 b7).toNat =
      b0.toNat + 2 ^ 8 * b1.toNat + 2 ^ 16 * b2.toNat + 2 ^ 24 * b3.toNat +
        2 ^ 32 * b4.toNat + 2 ^ 40 * b5.toNat + 2 ^ 48 * b6.toNat + 2 ^ 56 * b7.toNat := by
  have h0 := toNat_byte_setWidth (n := 64) b0 (by omega)
  have h1 := toNat_or_shifted (b0.setWidth 64) b1 8 (h0 ▸ b0.isLt) (by omega)
  have h2 := toNat_or_shifted _ b2 16 h1.2 (by omega)
  have h3 := toNat_or_shifted _ b3 24 h2.2 (by omega)
  have h4 := toNat_or_shifted _ b4 32 h3.2 (by omega)
  have h5 := toNat_or_shifted _ b5 40 h4.2 (by omega)
  have h6 := toNat_or_shifted _ b6 48 h5.2 (by omega)
  have h7 := toNat_or_shifted _ b7 56 h6.2 (by omega)
  rw [le64, h7.1, h6.1, h5.1, h4.1, h3.1, h2.1, h1.1, h0]

/-- A command word as a number (R80). -/
theorem packCmd_toNat (opc a8 : BitVec 8) (a16 : BitVec 16) (d64 : BitVec 64) :
    (packCmd opc a8 a16 d64).toNat =
      opc.toNat + 2 ^ 8 * a8.toNat + 2 ^ 16 * a16.toNat + 2 ^ 32 * d64.toNat := by
  have h0 := toNat_byte_setWidth (n := 96) opc (by omega)
  have h1 := toNat_or_shifted (opc.setWidth 96) a8 8 (h0 ▸ opc.isLt) (by omega)
  have h2 := toNat_or_shifted _ a16 16 h1.2 (by omega)
  have h3 := toNat_or_shifted _ d64 32 h2.2 (by omega)
  rw [packCmd, h3.1, h2.1, h1.1, h0]

/-- A key operand as a number; its bit 7 is 0 (R80). -/
theorem packKey_toNat (node : BitVec 7) (fidx : BitVec 8) :
    (packKey node fidx).toNat = node.toNat + 2 ^ 8 * fidx.toNat := by
  have hn := node.isLt
  have h0 : (node.setWidth 16).toNat = node.toNat := by
    rw [BitVec.toNat_setWidth, Nat.mod_eq_of_lt (by omega)]
  exact (toNat_or_shifted (node.setWidth 16) fidx 8 (by omega) (by omega)).1.trans (by rw [h0])

/-- Byte `i` of a value as a number (R8). -/
theorem byteOf_toNat {n : Nat} (v : BitVec n) (i : Nat) :
    (byteOf v i).toNat = v.toNat / 2 ^ (8 * i) % 2 ^ 8 := by
  rw [byteOf, BitVec.extractLsb'_toNat, Nat.shiftRight_eq_div_pow]

/-- The word sum, one word further (R100). -/
theorem wordSum_cons_cons (b0 b1 : Byte) (rest : List Byte) :
    wordSum (b0 :: b1 :: rest) = b0.toNat + 2 ^ 8 * b1.toNat + wordSum rest := by
  rw [wordSum, le16_toNat]

/-- An odd trailing byte contributes its low byte (R101). -/
theorem wordSum_singleton (b : Byte) : wordSum [b] = b.toNat := by
  rw [wordSum, le16_toNat]
  simp

/-- One fold of the carries as arithmetic (R100). -/
theorem foldCarry_eq (n : Nat) : foldCarry n = n % 65536 + n / 65536 := by
  unfold foldCarry
  rw [show (0xFFFF : Nat) = 2 ^ 16 - 1 from rfl, Nat.and_two_pow_sub_one_eq_mod,
    Nat.shiftRight_eq_div_pow]

/-- A field of the extractor as a number (R153). -/
theorem fxField_toNat (w : BitVec 64) {c len : Nat} (hlen : len ≤ 32) :
    (fxField w c len).toNat = w.toNat / 2 ^ c % 2 ^ len := by
  have h1 : (2 : Nat) ^ len ≤ 2 ^ 32 := Nat.pow_le_pow_right (by omega) hlen
  have h2 : w.toNat / 2 ^ c % 2 ^ len < 2 ^ len := Nat.mod_lt _ (Nat.two_pow_pos len)
  rw [fxField, BitVec.toNat_setWidth, BitVec.toNat_and, BitVec.toNat_ushiftRight,
    BitVec.toNat_ofNat, Nat.mod_eq_of_lt (a := 2 ^ len - 1) (by omega),
    Nat.and_two_pow_sub_one_eq_mod, Nat.shiftRight_eq_div_pow, Nat.mod_eq_of_lt (by omega)]

/-- The send payload has exactly 8 bytes (R141). -/
@[simp] theorem txPayload_length (len : BitVec 8) (data : BitVec 64) :
    (txPayload len data).length = 8 := by
  simp [txPayload]

end Sys2Proof.Machine
end

