-- ==== Sys2Proof/Laws/Encode.lean ====
section
/-! SUPPORT. The bits of a packed command word, and the fields read back from it (R80). -/

namespace Sys2Proof.Laws

/-- Which field a bit of a packed command word belongs to (R80). -/
theorem getLsbD_packCmd (o a : BitVec 8) (k : BitVec 16) (d : BitVec 64) (i : Nat) :
    (packCmd o a k d).getLsbD i =
      if i < 8 then o.getLsbD i else if i < 16 then a.getLsbD (i - 8)
      else if i < 32 then k.getLsbD (i - 16) else d.getLsbD (i - 32) := by
  simp only [packCmd, BitVec.getLsbD_or, BitVec.getLsbD_setWidth, BitVec.getLsbD_shiftLeft]
  rcases Nat.lt_or_ge i 96 with hi | hi
  · rcases Nat.lt_or_ge i 8 with h8 | h8
    · simp [h8, hi, show i < 16 by omega, show i < 32 by omega]
    · have ho : o.getLsbD i = false := BitVec.getLsbD_of_ge _ _ h8
      rcases Nat.lt_or_ge i 16 with h16 | h16
      · simp [hi, ho, h16, show ¬i < 8 by omega, show i < 32 by omega, show i - 8 < 96 by omega]
      · have ha : a.getLsbD (i - 8) = false := BitVec.getLsbD_of_ge _ _ (by omega)
        rcases Nat.lt_or_ge i 32 with h32 | h32
        · simp [hi, ho, ha, h32, show ¬i < 8 by omega, show ¬i < 16 by omega,
            show i - 16 < 96 by omega]
        · have hk : k.getLsbD (i - 16) = false := BitVec.getLsbD_of_ge _ _ (by omega)
          simp [hi, ho, ha, hk, show ¬i < 8 by omega, show ¬i < 16 by omega,
            show ¬i < 32 by omega, show i - 32 < 96 by omega]
  · have hd : d.getLsbD (i - 32) = false := BitVec.getLsbD_of_ge _ _ (by omega)
    simp [hd, show ¬i < 96 by omega, show ¬i < 8 by omega, show ¬i < 16 by omega,
      show ¬i < 32 by omega]

/-- Masking a packed word masks each of its four fields (R80, R82). -/
theorem packCmd_and_packCmd (o o' a a' : BitVec 8) (k k' : BitVec 16) (d d' : BitVec 64) :
    packCmd o a k d &&& packCmd o' a' k' d' =
      packCmd (o &&& o') (a &&& a') (k &&& k') (d &&& d') := by
  apply BitVec.eq_of_getLsbD_eq
  intro i _
  simp only [BitVec.getLsbD_and, getLsbD_packCmd]
  split
  · rfl
  · split
    · rfl
    · split <;> rfl

/-- `opc` of a packed word. -/
@[simp] theorem cmdOpc_packCmd (o a : BitVec 8) (k : BitVec 16) (d : BitVec 64) :
    cmdOpc (packCmd o a k d) = o := by
  apply BitVec.eq_of_getLsbD_eq
  intro i hi
  simp [cmdOpc, getLsbD_packCmd, hi]

/-- `a8` of a packed word. -/
@[simp] theorem cmdA8_packCmd (o a : BitVec 8) (k : BitVec 16) (d : BitVec 64) :
    cmdA8 (packCmd o a k d) = a := by
  apply BitVec.eq_of_getLsbD_eq
  intro i hi
  simp [cmdA8, getLsbD_packCmd, hi, show 8 + i < 16 by omega]

/-- `d64` of a packed word. -/
@[simp] theorem cmdD64_packCmd (o a : BitVec 8) (k : BitVec 16) (d : BitVec 64) :
    cmdD64 (packCmd o a k d) = d := by
  apply BitVec.eq_of_getLsbD_eq
  intro i hi
  simp [cmdD64, getLsbD_packCmd, hi, show ¬32 + i < 8 by omega, show ¬32 + i < 16 by omega]

/-- `a16` of a packed word, read as a key (R80): the nodeId. -/
theorem cmdNode_packCmd (o a : BitVec 8) (k : BitVec 16) (d : BitVec 64) :
    cmdNode (packCmd o a k d) = k.extractLsb' 0 7 := by
  apply BitVec.eq_of_getLsbD_eq
  intro i hi
  simp [cmdNode, getLsbD_packCmd, hi, show ¬16 + i < 8 by omega, show 16 + i < 32 by omega]

/-- `a16` of a packed word, read as a key (R80): the frame index. -/
theorem cmdFidx_packCmd (o a : BitVec 8) (k : BitVec 16) (d : BitVec 64) :
    cmdFidx (packCmd o a k d) = k.extractLsb' 8 8 := by
  apply BitVec.eq_of_getLsbD_eq
  intro i hi
  simp [cmdFidx, getLsbD_packCmd, hi, show ¬24 + i < 8 by omega, show ¬24 + i < 16 by omega,
    show 24 + i < 32 by omega, show 24 + i - 16 = 8 + i by omega]

/-- `d64[31:0]` of a packed word. -/
theorem cmdD32_packCmd (o a : BitVec 8) (k : BitVec 16) (d : BitVec 64) :
    cmdD32 (packCmd o a k d) = d.setWidth 32 := by
  apply BitVec.eq_of_getLsbD_eq
  intro i hi
  simp [cmdD32, getLsbD_packCmd, hi, show ¬32 + i < 8 by omega, show ¬32 + i < 16 by omega]

/-- Which part of a key a bit of `a16` belongs to (R80). -/
theorem getLsbD_packKey (node : BitVec 7) (fidx : BitVec 8) (i : Nat) :
    (packKey node fidx).getLsbD i =
      if i < 7 then node.getLsbD i else if i < 8 then false else fidx.getLsbD (i - 8) := by
  simp only [packKey, BitVec.getLsbD_or, BitVec.getLsbD_setWidth, BitVec.getLsbD_shiftLeft]
  rcases Nat.lt_or_ge i 7 with h7 | h7
  · simp [h7, show i < 8 by omega, show i < 16 by omega]
  · have hn : node.getLsbD i = false := BitVec.getLsbD_of_ge _ _ h7
    rcases Nat.lt_or_ge i 8 with h8 | h8
    · simp [hn, h8, show ¬i < 7 by omega]
    · rcases Nat.lt_or_ge i 16 with h16 | h16
      · simp [hn, h16, show ¬i < 7 by omega, show ¬i < 8 by omega, show i - 8 < 16 by omega]
      · have hf : fidx.getLsbD (i - 8) = false := BitVec.getLsbD_of_ge _ _ (by omega)
        simp [hn, hf, show ¬i < 7 by omega]

/-- The nodeId of a packed key (R80). -/
@[simp] theorem packKey_node (node : BitVec 7) (fidx : BitVec 8) :
    (packKey node fidx).extractLsb' 0 7 = node := by
  apply BitVec.eq_of_getLsbD_eq
  intro i hi
  simp [getLsbD_packKey, hi]

/-- The frame index of a packed key (R80). -/
@[simp] theorem packKey_fidx (node : BitVec 7) (fidx : BitVec 8) :
    (packKey node fidx).extractLsb' 8 8 = fidx := by
  apply BitVec.eq_of_getLsbD_eq
  intro i hi
  simp [getLsbD_packKey, hi, show ¬8 + i < 7 by omega]

/-- Bit 7 of a packed key, the reserved bit of `a16`, is 0 (R80). -/
theorem packKey_reserved (node : BitVec 7) (fidx : BitVec 8) :
    packKey node fidx &&& 0x0080#16 = 0#16 := by
  apply BitVec.eq_of_getLsbD_eq
  intro i hi
  rw [BitVec.getLsbD_and, getLsbD_packKey]
  interval_cases i <;> simp

/-- The upper half of a 32-bit operand's `d64` is 0 (R81). -/
theorem setWidth_upper_zero (v : BitVec 32) :
    v.setWidth 64 &&& 0xFFFFFFFF00000000#64 = 0#64 := by
  apply BitVec.eq_of_getLsbD_eq
  intro i hi
  rw [BitVec.getLsbD_and, BitVec.getLsbD_setWidth]
  rcases Nat.lt_or_ge i 32 with h | h
  · interval_cases i <;> simp
  · simp [BitVec.getLsbD_of_ge v i h]

end Sys2Proof.Laws
end

