-- ==== Sys2Proof/Laws/State.lean ====
section
/-! SUPPORT. One lemma per field of State per named update, true by rfl. -/

namespace Sys2Proof.Machine

variable (s : State)

/-! ### rxbWrite -/

@[simp] theorem State.rxbWrite_params (a : Nat) (v : Byte) : (s.rxbWrite a v).params = s.params := rfl
@[simp] theorem State.rxbWrite_rxb (a : Nat) (v : Byte) : (s.rxbWrite a v).rxb = s.rxb.write (a % Config.rxCap) v := rfl
@[simp] theorem State.rxbWrite_rxHead (a : Nat) (v : Byte) : (s.rxbWrite a v).rxHead = s.rxHead := rfl
@[simp] theorem State.rxbWrite_rxCount (a : Nat) (v : Byte) : (s.rxbWrite a v).rxCount = s.rxCount := rfl
@[simp] theorem State.rxbWrite_slots (a : Nat) (v : Byte) : (s.rxbWrite a v).slots = s.slots := rfl
@[simp] theorem State.rxbWrite_fxData (a : Nat) (v : Byte) : (s.rxbWrite a v).fxData = s.fxData := rfl
@[simp] theorem State.rxbWrite_fxCur (a : Nat) (v : Byte) : (s.rxbWrite a v).fxCur = s.fxCur := rfl
@[simp] theorem State.rxbWrite_fxAbort (a : Nat) (v : Byte) : (s.rxbWrite a v).fxAbort = s.fxAbort := rfl
@[simp] theorem State.rxbWrite_ports (a : Nat) (v : Byte) : (s.rxbWrite a v).ports = s.ports := rfl
@[simp] theorem State.rxbWrite_events (a : Nat) (v : Byte) : (s.rxbWrite a v).events = s.events := rfl
@[simp] theorem State.rxbWrite_cmdPort (a : Nat) (v : Byte) : (s.rxbWrite a v).cmdPort = s.cmdPort := rfl
@[simp] theorem State.rxbWrite_resetPin (a : Nat) (v : Byte) : (s.rxbWrite a v).resetPin = s.resetPin := rfl
@[simp] theorem State.rxbWrite_arbTurn (a : Nat) (v : Byte) : (s.rxbWrite a v).arbTurn = s.arbTurn := rfl

/-! ### ringAppend -/

@[simp] theorem State.ringAppend_params (b : Byte) : (s.ringAppend b).params = s.params := rfl
@[simp] theorem State.ringAppend_rxb (b : Byte) : (s.ringAppend b).rxb = s.rxb.write (s.ringTail % Config.rxCap) b := rfl
@[simp] theorem State.ringAppend_rxHead (b : Byte) : (s.ringAppend b).rxHead = s.rxHead := rfl
@[simp] theorem State.ringAppend_rxCount (b : Byte) : (s.ringAppend b).rxCount = s.rxCount + 1#9 := rfl
@[simp] theorem State.ringAppend_slots (b : Byte) : (s.ringAppend b).slots = s.slots := rfl
@[simp] theorem State.ringAppend_fxData (b : Byte) : (s.ringAppend b).fxData = s.fxData := rfl
@[simp] theorem State.ringAppend_fxCur (b : Byte) : (s.ringAppend b).fxCur = s.fxCur := rfl
@[simp] theorem State.ringAppend_fxAbort (b : Byte) : (s.ringAppend b).fxAbort = s.fxAbort := rfl
@[simp] theorem State.ringAppend_ports (b : Byte) : (s.ringAppend b).ports = s.ports := rfl
@[simp] theorem State.ringAppend_events (b : Byte) : (s.ringAppend b).events = s.events := rfl
@[simp] theorem State.ringAppend_cmdPort (b : Byte) : (s.ringAppend b).cmdPort = s.cmdPort := rfl
@[simp] theorem State.ringAppend_resetPin (b : Byte) : (s.ringAppend b).resetPin = s.resetPin := rfl
@[simp] theorem State.ringAppend_arbTurn (b : Byte) : (s.ringAppend b).arbTurn = s.arbTurn := rfl

/-! ### ringDrop -/

@[simp] theorem State.ringDrop_params (n : Nat) : (s.ringDrop n).params = s.params := rfl
@[simp] theorem State.ringDrop_rxb (n : Nat) : (s.ringDrop n).rxb = s.rxb := rfl
@[simp] theorem State.ringDrop_rxHead (n : Nat) : (s.ringDrop n).rxHead = s.rxHead + BitVec.ofNat 8 n := rfl
@[simp] theorem State.ringDrop_rxCount (n : Nat) : (s.ringDrop n).rxCount = s.rxCount - BitVec.ofNat 9 n := rfl
@[simp] theorem State.ringDrop_slots (n : Nat) : (s.ringDrop n).slots = s.slots := rfl
@[simp] theorem State.ringDrop_fxData (n : Nat) : (s.ringDrop n).fxData = s.fxData := rfl
@[simp] theorem State.ringDrop_fxCur (n : Nat) : (s.ringDrop n).fxCur = s.fxCur := rfl
@[simp] theorem State.ringDrop_fxAbort (n : Nat) : (s.ringDrop n).fxAbort = s.fxAbort := rfl
@[simp] theorem State.ringDrop_ports (n : Nat) : (s.ringDrop n).ports = s.ports := rfl
@[simp] theorem State.ringDrop_events (n : Nat) : (s.ringDrop n).events = s.events := rfl
@[simp] theorem State.ringDrop_cmdPort (n : Nat) : (s.ringDrop n).cmdPort = s.cmdPort := rfl
@[simp] theorem State.ringDrop_resetPin (n : Nat) : (s.ringDrop n).resetPin = s.resetPin := rfl
@[simp] theorem State.ringDrop_arbTurn (n : Nat) : (s.ringDrop n).arbTurn = s.arbTurn := rfl

/-! ### emit -/

@[simp] theorem State.emit_params (body : EventBody) : (s.emit body).params = s.params := rfl
@[simp] theorem State.emit_rxb (body : EventBody) : (s.emit body).rxb = s.rxb := rfl
@[simp] theorem State.emit_rxHead (body : EventBody) : (s.emit body).rxHead = s.rxHead := rfl
@[simp] theorem State.emit_rxCount (body : EventBody) : (s.emit body).rxCount = s.rxCount := rfl
@[simp] theorem State.emit_slots (body : EventBody) : (s.emit body).slots = s.slots := rfl
@[simp] theorem State.emit_fxData (body : EventBody) : (s.emit body).fxData = s.fxData := rfl
@[simp] theorem State.emit_fxCur (body : EventBody) : (s.emit body).fxCur = s.fxCur := rfl
@[simp] theorem State.emit_fxAbort (body : EventBody) : (s.emit body).fxAbort = s.fxAbort := rfl
@[simp] theorem State.emit_ports (body : EventBody) : (s.emit body).ports = s.ports := rfl
@[simp] theorem State.emit_events (body : EventBody) : (s.emit body).events = s.events ++ [⟨s.cmdPort, body⟩] := rfl
@[simp] theorem State.emit_cmdPort (body : EventBody) : (s.emit body).cmdPort = s.cmdPort := rfl
@[simp] theorem State.emit_resetPin (body : EventBody) : (s.emit body).resetPin = s.resetPin := rfl
@[simp] theorem State.emit_arbTurn (body : EventBody) : (s.emit body).arbTurn = s.arbTurn := rfl

/-! ### emitAll -/

@[simp] theorem State.emitAll_params (bodies : List EventBody) : (s.emitAll bodies).params = s.params := rfl
@[simp] theorem State.emitAll_rxb (bodies : List EventBody) : (s.emitAll bodies).rxb = s.rxb := rfl
@[simp] theorem State.emitAll_rxHead (bodies : List EventBody) : (s.emitAll bodies).rxHead = s.rxHead := rfl
@[simp] theorem State.emitAll_rxCount (bodies : List EventBody) : (s.emitAll bodies).rxCount = s.rxCount := rfl
@[simp] theorem State.emitAll_slots (bodies : List EventBody) : (s.emitAll bodies).slots = s.slots := rfl
@[simp] theorem State.emitAll_fxData (bodies : List EventBody) : (s.emitAll bodies).fxData = s.fxData := rfl
@[simp] theorem State.emitAll_fxCur (bodies : List EventBody) : (s.emitAll bodies).fxCur = s.fxCur := rfl
@[simp] theorem State.emitAll_fxAbort (bodies : List EventBody) : (s.emitAll bodies).fxAbort = s.fxAbort := rfl
@[simp] theorem State.emitAll_ports (bodies : List EventBody) : (s.emitAll bodies).ports = s.ports := rfl
@[simp] theorem State.emitAll_events (bodies : List EventBody) : (s.emitAll bodies).events = s.events ++ bodies.map (fun body => ⟨s.cmdPort, body⟩) := rfl
@[simp] theorem State.emitAll_cmdPort (bodies : List EventBody) : (s.emitAll bodies).cmdPort = s.cmdPort := rfl
@[simp] theorem State.emitAll_resetPin (bodies : List EventBody) : (s.emitAll bodies).resetPin = s.resetPin := rfl
@[simp] theorem State.emitAll_arbTurn (bodies : List EventBody) : (s.emitAll bodies).arbTurn = s.arbTurn := rfl

/-! ### raiseIllegal -/

@[simp] theorem State.raiseIllegal_params (c : IllegalCause) (w : CmdWord) : (s.raiseIllegal c w).params = s.params := rfl
@[simp] theorem State.raiseIllegal_rxb (c : IllegalCause) (w : CmdWord) : (s.raiseIllegal c w).rxb = s.rxb := rfl
@[simp] theorem State.raiseIllegal_rxHead (c : IllegalCause) (w : CmdWord) : (s.raiseIllegal c w).rxHead = s.rxHead := rfl
@[simp] theorem State.raiseIllegal_rxCount (c : IllegalCause) (w : CmdWord) : (s.raiseIllegal c w).rxCount = s.rxCount := rfl
@[simp] theorem State.raiseIllegal_slots (c : IllegalCause) (w : CmdWord) : (s.raiseIllegal c w).slots = s.slots := rfl
@[simp] theorem State.raiseIllegal_fxData (c : IllegalCause) (w : CmdWord) : (s.raiseIllegal c w).fxData = s.fxData := rfl
@[simp] theorem State.raiseIllegal_fxCur (c : IllegalCause) (w : CmdWord) : (s.raiseIllegal c w).fxCur = s.fxCur := rfl
@[simp] theorem State.raiseIllegal_fxAbort (c : IllegalCause) (w : CmdWord) : (s.raiseIllegal c w).fxAbort = s.fxAbort := rfl
@[simp] theorem State.raiseIllegal_ports (c : IllegalCause) (w : CmdWord) : (s.raiseIllegal c w).ports = s.ports := rfl
@[simp] theorem State.raiseIllegal_events (c : IllegalCause) (w : CmdWord) : (s.raiseIllegal c w).events = s.events ++ [⟨s.cmdPort, .illegal c w⟩] := rfl
@[simp] theorem State.raiseIllegal_cmdPort (c : IllegalCause) (w : CmdWord) : (s.raiseIllegal c w).cmdPort = s.cmdPort := rfl
@[simp] theorem State.raiseIllegal_resetPin (c : IllegalCause) (w : CmdWord) : (s.raiseIllegal c w).resetPin = s.resetPin := rfl
@[simp] theorem State.raiseIllegal_arbTurn (c : IllegalCause) (w : CmdWord) : (s.raiseIllegal c w).arbTurn = s.arbTurn := rfl

/-! ### setFxCur -/

@[simp] theorem State.setFxCur_params (c : BitVec 7) : (s.setFxCur c).params = s.params := rfl
@[simp] theorem State.setFxCur_rxb (c : BitVec 7) : (s.setFxCur c).rxb = s.rxb := rfl
@[simp] theorem State.setFxCur_rxHead (c : BitVec 7) : (s.setFxCur c).rxHead = s.rxHead := rfl
@[simp] theorem State.setFxCur_rxCount (c : BitVec 7) : (s.setFxCur c).rxCount = s.rxCount := rfl
@[simp] theorem State.setFxCur_slots (c : BitVec 7) : (s.setFxCur c).slots = s.slots := rfl
@[simp] theorem State.setFxCur_fxData (c : BitVec 7) : (s.setFxCur c).fxData = s.fxData := rfl
@[simp] theorem State.setFxCur_fxCur (c : BitVec 7) : (s.setFxCur c).fxCur = c := rfl
@[simp] theorem State.setFxCur_fxAbort (c : BitVec 7) : (s.setFxCur c).fxAbort = s.fxAbort := rfl
@[simp] theorem State.setFxCur_ports (c : BitVec 7) : (s.setFxCur c).ports = s.ports := rfl
@[simp] theorem State.setFxCur_events (c : BitVec 7) : (s.setFxCur c).events = s.events := rfl
@[simp] theorem State.setFxCur_cmdPort (c : BitVec 7) : (s.setFxCur c).cmdPort = s.cmdPort := rfl
@[simp] theorem State.setFxCur_resetPin (c : BitVec 7) : (s.setFxCur c).resetPin = s.resetPin := rfl
@[simp] theorem State.setFxCur_arbTurn (c : BitVec 7) : (s.setFxCur c).arbTurn = s.arbTurn := rfl

/-! ### setFxAbort -/

@[simp] theorem State.setFxAbort_params : (s.setFxAbort).params = s.params := rfl
@[simp] theorem State.setFxAbort_rxb : (s.setFxAbort).rxb = s.rxb := rfl
@[simp] theorem State.setFxAbort_rxHead : (s.setFxAbort).rxHead = s.rxHead := rfl
@[simp] theorem State.setFxAbort_rxCount : (s.setFxAbort).rxCount = s.rxCount := rfl
@[simp] theorem State.setFxAbort_slots : (s.setFxAbort).slots = s.slots := rfl
@[simp] theorem State.setFxAbort_fxData : (s.setFxAbort).fxData = s.fxData := rfl
@[simp] theorem State.setFxAbort_fxCur : (s.setFxAbort).fxCur = s.fxCur := rfl
@[simp] theorem State.setFxAbort_fxAbort : (s.setFxAbort).fxAbort = true := rfl
@[simp] theorem State.setFxAbort_ports : (s.setFxAbort).ports = s.ports := rfl
@[simp] theorem State.setFxAbort_events : (s.setFxAbort).events = s.events := rfl
@[simp] theorem State.setFxAbort_cmdPort : (s.setFxAbort).cmdPort = s.cmdPort := rfl
@[simp] theorem State.setFxAbort_resetPin : (s.setFxAbort).resetPin = s.resetPin := rfl
@[simp] theorem State.setFxAbort_arbTurn : (s.setFxAbort).arbTurn = s.arbTurn := rfl

/-! ### setSlots -/

@[simp] theorem State.setSlots_params (t : List Slot) : (s.setSlots t).params = s.params := rfl
@[simp] theorem State.setSlots_rxb (t : List Slot) : (s.setSlots t).rxb = s.rxb := rfl
@[simp] theorem State.setSlots_rxHead (t : List Slot) : (s.setSlots t).rxHead = s.rxHead := rfl
@[simp] theorem State.setSlots_rxCount (t : List Slot) : (s.setSlots t).rxCount = s.rxCount := rfl
@[simp] theorem State.setSlots_slots (t : List Slot) : (s.setSlots t).slots = t := rfl
@[simp] theorem State.setSlots_fxData (t : List Slot) : (s.setSlots t).fxData = s.fxData := rfl
@[simp] theorem State.setSlots_fxCur (t : List Slot) : (s.setSlots t).fxCur = s.fxCur := rfl
@[simp] theorem State.setSlots_fxAbort (t : List Slot) : (s.setSlots t).fxAbort = s.fxAbort := rfl
@[simp] theorem State.setSlots_ports (t : List Slot) : (s.setSlots t).ports = s.ports := rfl
@[simp] theorem State.setSlots_events (t : List Slot) : (s.setSlots t).events = s.events := rfl
@[simp] theorem State.setSlots_cmdPort (t : List Slot) : (s.setSlots t).cmdPort = s.cmdPort := rfl
@[simp] theorem State.setSlots_resetPin (t : List Slot) : (s.setSlots t).resetPin = s.resetPin := rfl
@[simp] theorem State.setSlots_arbTurn (t : List Slot) : (s.setSlots t).arbTurn = s.arbTurn := rfl

/-! ### present -/

@[simp] theorem State.present_params (p : Port) (w : CmdWord) : (s.present p w).params = s.params := rfl
@[simp] theorem State.present_rxb (p : Port) (w : CmdWord) : (s.present p w).rxb = s.rxb := rfl
@[simp] theorem State.present_rxHead (p : Port) (w : CmdWord) : (s.present p w).rxHead = s.rxHead := rfl
@[simp] theorem State.present_rxCount (p : Port) (w : CmdWord) : (s.present p w).rxCount = s.rxCount := rfl
@[simp] theorem State.present_slots (p : Port) (w : CmdWord) : (s.present p w).slots = s.slots := rfl
@[simp] theorem State.present_fxData (p : Port) (w : CmdWord) : (s.present p w).fxData = s.fxData := rfl
@[simp] theorem State.present_fxCur (p : Port) (w : CmdWord) : (s.present p w).fxCur = s.fxCur := rfl
@[simp] theorem State.present_fxAbort (p : Port) (w : CmdWord) : (s.present p w).fxAbort = s.fxAbort := rfl
@[simp] theorem State.present_ports (p : Port) (w : CmdWord) : (s.present p w).ports = s.ports.put p (s.ports.get p ++ [w]) := rfl
@[simp] theorem State.present_events (p : Port) (w : CmdWord) : (s.present p w).events = s.events := rfl
@[simp] theorem State.present_cmdPort (p : Port) (w : CmdWord) : (s.present p w).cmdPort = s.cmdPort := rfl
@[simp] theorem State.present_resetPin (p : Port) (w : CmdWord) : (s.present p w).resetPin = s.resetPin := rfl
@[simp] theorem State.present_arbTurn (p : Port) (w : CmdWord) : (s.present p w).arbTurn = s.arbTurn := rfl

/-! ### accept -/

@[simp] theorem State.accept_params (p : Port) : (s.accept p).params = s.params := rfl
@[simp] theorem State.accept_rxb (p : Port) : (s.accept p).rxb = s.rxb := rfl
@[simp] theorem State.accept_rxHead (p : Port) : (s.accept p).rxHead = s.rxHead := rfl
@[simp] theorem State.accept_rxCount (p : Port) : (s.accept p).rxCount = s.rxCount := rfl
@[simp] theorem State.accept_slots (p : Port) : (s.accept p).slots = s.slots := rfl
@[simp] theorem State.accept_fxData (p : Port) : (s.accept p).fxData = s.fxData := rfl
@[simp] theorem State.accept_fxCur (p : Port) : (s.accept p).fxCur = s.fxCur := rfl
@[simp] theorem State.accept_fxAbort (p : Port) : (s.accept p).fxAbort = s.fxAbort := rfl
@[simp] theorem State.accept_ports (p : Port) : (s.accept p).ports = s.ports.put p (s.ports.get p).tail := rfl
@[simp] theorem State.accept_events (p : Port) : (s.accept p).events = s.events := rfl
@[simp] theorem State.accept_cmdPort (p : Port) : (s.accept p).cmdPort = p := rfl
@[simp] theorem State.accept_resetPin (p : Port) : (s.accept p).resetPin = s.resetPin := rfl
@[simp] theorem State.accept_arbTurn (p : Port) : (s.accept p).arbTurn = s.arbTurn + 1 := rfl

/-! ### assertReset -/

@[simp] theorem State.assertReset_params : (s.assertReset).params = s.params := rfl
@[simp] theorem State.assertReset_rxb : (s.assertReset).rxb = s.rxb := rfl
@[simp] theorem State.assertReset_rxHead : (s.assertReset).rxHead = s.rxHead := rfl
@[simp] theorem State.assertReset_rxCount : (s.assertReset).rxCount = s.rxCount := rfl
@[simp] theorem State.assertReset_slots : (s.assertReset).slots = s.slots := rfl
@[simp] theorem State.assertReset_fxData : (s.assertReset).fxData = s.fxData := rfl
@[simp] theorem State.assertReset_fxCur : (s.assertReset).fxCur = s.fxCur := rfl
@[simp] theorem State.assertReset_fxAbort : (s.assertReset).fxAbort = s.fxAbort := rfl
@[simp] theorem State.assertReset_ports : (s.assertReset).ports = s.ports := rfl
@[simp] theorem State.assertReset_events : (s.assertReset).events = s.events := rfl
@[simp] theorem State.assertReset_cmdPort : (s.assertReset).cmdPort = s.cmdPort := rfl
@[simp] theorem State.assertReset_resetPin : (s.assertReset).resetPin = true := rfl
@[simp] theorem State.assertReset_arbTurn : (s.assertReset).arbTurn = s.arbTurn := rfl

/-! ### applyReset -/

@[simp] theorem State.applyReset_params : (s.applyReset).params = s.params := rfl
@[simp] theorem State.applyReset_rxb : (s.applyReset).rxb = [] := rfl
@[simp] theorem State.applyReset_rxHead : (s.applyReset).rxHead = 0#8 := rfl
@[simp] theorem State.applyReset_rxCount : (s.applyReset).rxCount = 0#9 := rfl
@[simp] theorem State.applyReset_slots : (s.applyReset).slots = List.replicate s.params.nt Slot.cleared := rfl
@[simp] theorem State.applyReset_fxData : (s.applyReset).fxData = 0#64 := rfl
@[simp] theorem State.applyReset_fxCur : (s.applyReset).fxCur = 0#7 := rfl
@[simp] theorem State.applyReset_fxAbort : (s.applyReset).fxAbort = true := rfl
@[simp] theorem State.applyReset_ports : (s.applyReset).ports = Ports.empty := rfl
@[simp] theorem State.applyReset_events : (s.applyReset).events = s.events := rfl
@[simp] theorem State.applyReset_cmdPort : (s.applyReset).cmdPort = .host := rfl
@[simp] theorem State.applyReset_resetPin : (s.applyReset).resetPin = false := rfl
@[simp] theorem State.applyReset_arbTurn : (s.applyReset).arbTurn = s.arbTurn := rfl

end Sys2Proof.Machine
end

