-- ==== Sys2Proof/Laws/Ports.lean ====
section
/-! SUPPORT. The ports as FIFOs, and the arbiter's pick. -/

namespace Sys2Proof.Machine

/-- A queue put on a port is what that port holds; the others hold what they held. -/
@[simp] theorem Ports.get_put (q : Ports) (p r : Port) (ws : List CmdWord) :
    (q.put p ws).get r = if r = p then ws else q.get r := by
  cases p <;> cases r <;> rfl

@[simp] theorem Ports.get_empty (p : Port) : Ports.empty.get p = [] := by
  cases p <;> rfl

/-- An enabled head is the head of its port, and is not held. -/
theorem State.enabledHead_eq_some {s : State} {p : Port} {w : CmdWord} :
    s.enabledHead p = some w ↔ (∃ rest, s.ports.get p = w :: rest) ∧ s.held w = false := by
  unfold State.enabledHead
  cases h : s.ports.get p with
  | nil => simp
  | cons v rest =>
    by_cases hv : s.held v <;> simp [hv]
    · intro hw; subst hw; exact hv
    · intro hw; subst hw; simpa using hv

/-- A port is among the enabled ones when its head is enabled. -/
theorem State.mem_enabledPorts {s : State} {p : Port} :
    p ∈ s.enabledPorts ↔ (s.enabledHead p).isSome = true := by
  cases p <;> simp [State.enabledPorts]

/-- Whatever the arbiter picks is one of the enabled ports. -/
theorem arbitrate_mem {k : Nat} {en : List Port} {p : Port} (h : arbitrate k en = some p) :
    p ∈ en := by
  unfold arbitrate at h
  split at h
  · cases h
  · simpa using h.symm
  · exact List.mem_of_getElem? h

/-- The arbiter picks nothing only when nothing is enabled. -/
theorem arbitrate_eq_none {k : Nat} {en : List Port} : arbitrate k en = none ↔ en = [] := by
  unfold arbitrate
  split
  · simp
  · simp
  · rename_i p q rest
    have : k % (rest.length + 2) < rest.length + 2 := Nat.mod_lt _ (by omega)
    simp
    omega

end Sys2Proof.Machine
end

