-- ==== Sys2Proof/Laws/Memory.lean ====
section
/-! SUPPORT. The laws of the ring's contents as memory: read after write, and the canonical form. -/

namespace Sys2Proof.Machine

/-- A byte written is read back. -/
@[simp] theorem Memory.read_write_same (m : Memory) (a : Nat) (v : Byte) :
    (m.write a v).read a = some v := by
  induction m with
  | nil => simp [Memory.write, Memory.read]
  | cons cell rest ih =>
    obtain ⟨b, x⟩ := cell
    unfold Memory.write
    split
    · simp [Memory.read]
    · split
      · simp [Memory.read]
      · rename_i h
        simp [Memory.read, ih, Ne.symm h]

/-- A write leaves every other address as it was. -/
theorem Memory.read_write_other (m : Memory) {a c : Nat} (v : Byte) (h : c ≠ a) :
    (m.write a v).read c = m.read c := by
  induction m with
  | nil => simp [Memory.write, Memory.read, Ne.symm h]
  | cons cell rest ih =>
    obtain ⟨b, x⟩ := cell
    unfold Memory.write
    split
    · simp [Memory.read, Ne.symm h]
    · split
      · rename_i hb
        subst hb
        simp [Memory.read, Ne.symm h]
      · simp [Memory.read, ih]

/-- A read after a write, in one lemma. -/
theorem Memory.read_write (m : Memory) (a c : Nat) (v : Byte) :
    (m.write a v).read c = if c = a then some v else m.read c := by
  split
  · rename_i h
    subst h
    exact m.read_write_same c v
  · exact m.read_write_other v ‹_›

/-- Every address of a well-formed memory is below `RX_CAP`; here the first one. -/
theorem Memory.wf_head_lt : ∀ (m : Memory) (a : Nat) (x : Byte),
    Memory.wf ((a, x) :: m) = true → a < Config.rxCap
  | [], a, x, h => by simpa [Memory.wf] using h
  | (b, y) :: rest, a, x, h => by
    simp only [Memory.wf, Bool.and_eq_true, decide_eq_true_eq] at h
    exact lt_trans h.1 (Memory.wf_head_lt rest b y h.2)

/-- The canonical form of a longer list, taken apart. -/
theorem Memory.wf_cons (a : Nat) (x : Byte) (m : Memory) :
    Memory.wf ((a, x) :: m) = true ↔
      (a < Config.rxCap ∧ Memory.wf m = true ∧ ∀ c ∈ m.head?, a < c.1) := by
  cases m with
  | nil => simp [Memory.wf]
  | cons cell rest =>
    obtain ⟨b, y⟩ := cell
    constructor
    · intro h
      have ha := Memory.wf_head_lt _ _ _ h
      simp only [Memory.wf, Bool.and_eq_true, decide_eq_true_eq] at h
      exact ⟨ha, h.2, by simpa using h.1⟩
    · rintro ⟨_, h2, h1⟩
      simp only [Memory.wf, Bool.and_eq_true, decide_eq_true_eq]
      exact ⟨by simpa using h1, h2⟩

/-- The first entry after a write is the written one or the old first one. -/
theorem Memory.head?_write (m : Memory) (a : Nat) (v : Byte) :
    ∀ c ∈ (m.write a v).head?, c.1 = a ∨ c ∈ m.head? := by
  cases m with
  | nil => simp [Memory.write]
  | cons cell rest =>
    obtain ⟨b, x⟩ := cell
    unfold Memory.write
    split
    · simp
    · split
      · simp
      · simp

/-- Every write keeps the canonical form. -/
theorem Memory.wf_write {m : Memory} {a : Nat} (v : Byte) (ha : a < Config.rxCap)
    (h : m.wf = true) : (m.write a v).wf = true := by
  induction m with
  | nil => simpa [Memory.write, Memory.wf] using ha
  | cons cell rest ih =>
    obtain ⟨b, x⟩ := cell
    have hc := (Memory.wf_cons b x rest).1 h
    unfold Memory.write
    split
    · rename_i hlt
      exact (Memory.wf_cons _ _ _).2 ⟨ha, h, by simpa using hlt⟩
    · split
      · rename_i heq
        subst heq
        exact (Memory.wf_cons _ _ _).2 ⟨ha, hc.2.1, hc.2.2⟩
      · rename_i hlt hne
        refine (Memory.wf_cons _ _ _).2 ⟨hc.1, ih hc.2.1, fun c hmem => ?_⟩
        rcases Memory.head?_write rest a v c hmem with h1 | h1
        · omega
        · exact hc.2.2 c h1

/-- The empty memory, which is the reset state's, has the canonical form. -/
theorem Memory.wf_nil : Memory.wf [] = true := rfl

/-- A well-formed memory lists nothing below its first address. -/
theorem Memory.read_below {m : Memory} (h : m.wf = true) {a : Nat}
    (ha : ∀ c ∈ m.head?, a < c.1) : m.read a = none := by
  induction m with
  | nil => rfl
  | cons cell rest ih =>
    obtain ⟨b, x⟩ := cell
    have hc := (Memory.wf_cons b x rest).1 h
    have hab : a < b := by simpa using ha
    have hne : b ≠ a := by omega
    simp only [Memory.read, hne, if_false]
    exact ih hc.2.1 fun c hmem => lt_trans hab (hc.2.2 c hmem)

/-- The form is canonical: two well-formed memories that read the same everywhere are equal data. -/
theorem Memory.ext_of_wf {m m' : Memory} (h : m.wf = true) (h' : m'.wf = true)
    (hr : ∀ a, m.read a = m'.read a) : m = m' := by
  induction m generalizing m' with
  | nil =>
    cases m' with
    | nil => rfl
    | cons cell rest => simpa [Memory.read] using hr cell.1
  | cons cell rest ih =>
    obtain ⟨b, x⟩ := cell
    have hc := (Memory.wf_cons b x rest).1 h
    cases m' with
    | nil => simpa [Memory.read] using hr b
    | cons cell' rest' =>
      obtain ⟨b', x'⟩ := cell'
      have hc' := (Memory.wf_cons b' x' rest').1 h'
      have hbb : b = b' := by
        rcases Nat.lt_trichotomy b b' with hlt | heq | hlt
        · have := hr b
          rw [Memory.read_below h' (by simpa using hlt)] at this
          simp [Memory.read] at this
        · exact heq
        · have := hr b'
          rw [Memory.read_below h (by simpa using hlt)] at this
          simp [Memory.read] at this
      subst hbb
      have hx : x = x' := by simpa [Memory.read] using hr b
      subst hx
      have htail : rest = rest' := by
        refine ih hc.2.1 hc'.2.1 fun a => ?_
        by_cases hab : b = a
        · subst hab
          rw [Memory.read_below hc.2.1 hc.2.2, Memory.read_below hc'.2.1 hc'.2.2]
        · simpa [Memory.read, hab] using hr a
      rw [htail]

end Sys2Proof.Machine
end

