-- ==== Sys2Proof/Laws/Ring.lean ====
section
/-! SUPPORT. The ring as a queue: what reading, appending and dropping do to the unconsumed bytes. -/

namespace Sys2Proof.Machine

/-- Reading the ring depends on its contents alone. -/
theorem State.rxbRead_congr {s t : State} (h : t.rxb = s.rxb) (a : Nat) :
    t.rxbRead a = s.rxbRead a := by
  simp only [State.rxbRead, h]

/-- The index a byte is read at is taken modulo 256 (R11). -/
theorem State.rxbRead_mod (s : State) (a : Nat) : s.rxbRead (a % Config.rxCap) = s.rxbRead a := by
  simp only [State.rxbRead, Nat.mod_mod]

/-- A written byte is read back; every other address reads as before. -/
theorem State.rxbRead_rxbWrite (s : State) (a c : Nat) (v : Byte) :
    (s.rxbWrite a v).rxbRead c =
      if c % Config.rxCap = a % Config.rxCap then v else s.rxbRead c := by
  simp only [State.rxbRead, State.rxbWrite_rxb, Memory.read_write]
  by_cases h : c % Config.rxCap = a % Config.rxCap <;> simp [h]

@[simp] theorem State.ringBytes_length (s : State) (n : Nat) : (s.ringBytes n).length = n := by
  simp [State.ringBytes]

@[simp] theorem State.unconsumed_length (s : State) : s.unconsumed.length = s.rxCount.toNat := by
  simp [State.unconsumed]

/-- Item `k` of the first `n` ring bytes. -/
theorem State.ringBytes_getElem? (s : State) (n k : Nat) :
    (s.ringBytes n)[k]? = if k < n then some (s.ring k) else none := by
  by_cases h : k < n <;> simp [State.ringBytes, h]

/-- The first `n` ring bytes are the first `n` unconsumed ones, when there are that many. -/
theorem State.ringBytes_eq_take (s : State) {n : Nat} (h : n ≤ s.rxCount.toNat) :
    s.ringBytes n = s.unconsumed.take n := by
  apply List.ext_getElem?
  intro k
  simp only [State.unconsumed, List.getElem?_take, State.ringBytes_getElem?]
  by_cases hk : k < n
  · simp [hk, Nat.lt_of_lt_of_le hk h]
  · simp [hk]

/-- The unconsumed bytes depend on the ring registers and the contents alone. -/
theorem State.unconsumed_congr {s t : State} (hb : t.rxb = s.rxb) (hh : t.rxHead = s.rxHead)
    (hc : t.rxCount = s.rxCount) : t.unconsumed = s.unconsumed := by
  have hr : t.ring = s.ring := by
    funext k
    simp only [State.ring, State.rxbRead, hb, hh]
  simp only [State.unconsumed, State.ringBytes, hr, hc]

/-- `Drop(n)` moves the k-th unconsumed byte to the front by `n`. -/
theorem State.ring_ringDrop (s : State) (n k : Nat) : (s.ringDrop n).ring k = s.ring (n + k) := by
  rw [State.ring, State.ring, ← State.rxbRead_mod, ← State.rxbRead_mod s]
  rw [State.rxbRead_congr (s.ringDrop_rxb n)]
  congr 1
  simp only [State.ringDrop_rxHead, BitVec.toNat_add, BitVec.toNat_ofNat, Config.rxCap]
  omega

/-- `Drop(n)` moves the head by `n` modulo 256 (R11). -/
theorem State.ringDrop_head (s : State) (n : Nat) :
    (s.ringDrop n).rxHead.toNat = (s.rxHead.toNat + n) % Config.rxCap := by
  simp [State.ringDrop]

/-- The count after `Drop(n)` with `n <= rx_count` (R11). -/
theorem State.ringDrop_count (s : State) {n : Nat} (h : n ≤ s.rxCount.toNat) :
    (s.ringDrop n).rxCount.toNat = s.rxCount.toNat - n := by
  have := s.rxCount.isLt
  simp only [State.ringDrop_rxCount, BitVec.toNat_sub, BitVec.toNat_ofNat]
  omega

/-- `Drop(n)` consumes exactly the `n` oldest bytes (R11). -/
theorem State.unconsumed_ringDrop (s : State) {n : Nat} (h : n ≤ s.rxCount.toNat) :
    (s.ringDrop n).unconsumed = s.unconsumed.drop n := by
  apply List.ext_getElem?
  intro k
  rw [List.getElem?_drop]
  simp only [State.unconsumed, State.ringBytes_getElem?, s.ringDrop_count h, State.ring_ringDrop]
  by_cases hk : n + k < s.rxCount.toNat
  · rw [if_pos hk, if_pos (by omega)]
  · rw [if_neg hk, if_neg (by omega)]

/-- Below 256 bytes, the append position is none of the unconsumed ones. -/
theorem State.ring_ringAppend (s : State) (b : Byte) (h : s.rxCount.toNat < Config.rxCap) {k : Nat}
    (hk : k ≤ s.rxCount.toNat) :
    (s.ringAppend b).ring k = if k = s.rxCount.toNat then b else s.ring k := by
  have hb : (s.ringAppend b).ring k = (s.rxbWrite s.ringTail b).ring k := rfl
  have hcap : Config.rxCap = 256 := rfl
  rw [hb, State.ring, State.rxbRead_rxbWrite]
  simp only [State.rxbWrite_rxHead, State.ringTail, Nat.mod_mod]
  by_cases hc : k = s.rxCount.toNat
  · simp [hc]
  · rw [if_neg (by rw [hcap] at h ⊢; omega), if_neg hc]
    rfl

/-- The count after an append below 256 bytes. -/
theorem State.ringAppend_count (s : State) (b : Byte) (h : s.rxCount.toNat < Config.rxCap) :
    (s.ringAppend b).rxCount.toNat = s.rxCount.toNat + 1 := by
  simp only [Config.rxCap] at h
  simp only [State.ringAppend_rxCount, BitVec.toNat_add, BitVec.toNat_ofNat]
  omega

/-- An append below 256 bytes adds one byte after the youngest (R110). -/
theorem State.unconsumed_ringAppend (s : State) (b : Byte) (h : s.rxCount.toNat < Config.rxCap) :
    (s.ringAppend b).unconsumed = s.unconsumed ++ [b] := by
  apply List.ext_getElem?
  intro k
  simp only [State.unconsumed, State.ringBytes_getElem?, s.ringAppend_count b h]
  rw [List.getElem?_append, State.ringBytes_length, State.ringBytes_getElem?]
  by_cases hk : k < s.rxCount.toNat
  · rw [if_pos (by omega), if_pos hk, if_pos hk, s.ring_ringAppend b h (by omega),
      if_neg (by omega)]
  · by_cases he : k = s.rxCount.toNat
    · rw [if_pos (by omega), if_neg hk, s.ring_ringAppend b h (by omega), if_pos he]
      simp [he]
    · rw [if_neg (by omega), if_neg hk]
      have : k - s.rxCount.toNat ≠ 0 := by omega
      simp [this]

end Sys2Proof.Machine
end

