-- ==== Sys2Proof/Laws/Exec.lean ====
section
/-! SUPPORT. One inversion lemma per shared operation and per branching command: everything it can do,
so that a proof cites the cases and does not unfold the meaning. -/

namespace Sys2Proof.Machine

/-- What validating a candidate can do (R116, R117). -/
theorem State.judgeCandidate_cases (s : State) :
    (frameValid (s.ringBytes Config.rxFrameLen) = true ∧
      s.judgeCandidate =
        (s.emit (frameOkEvent (s.ringBytes Config.rxFrameLen))).ringDrop Config.rxFrameLen) ∨
    (frameValid (s.ringBytes Config.rxFrameLen) = false ∧
      s.judgeCandidate =
        (s.emit (frameBadEvent (s.ringBytes Config.rxFrameLen))).ringDrop
          (resyncLength (s.ringBytes Config.rxFrameLen))) := by
  unfold State.judgeCandidate
  by_cases h : frameValid (s.ringBytes Config.rxFrameLen) = true
  · exact .inl ⟨h, by simp [h]⟩
  · exact .inr ⟨by simpa using h, by simp [h]⟩

/-- What `RX_BYTE` can do (R110, R111). -/
theorem execRxByte_cases (b : BitVec 8) (s : State) :
    (s.rxReady = true ∧ execRxByte b s = .next (s.ringAppend b)) ∨
    (s.rxReady = false ∧ s.params.rxFullPolicy = .hold ∧ execRxByte b s = .next s) ∨
    (s.rxReady = false ∧ s.params.rxFullPolicy = .drop ∧
      execRxByte b s = .next (s.emit (.rxDrop b))) := by
  unfold execRxByte
  cases hr : s.rxReady <;> cases hp : s.params.rxFullPolicy <;> simp

/-- What `RX_STEP` can do (R112 to R117). -/
theorem execRxStep_cases (s : State) :
    (firstSof s.unconsumed = none ∧ Config.noiseMax < s.rxCount.toNat ∧
      execRxStep s = .next (s.ringDrop s.rxCount.toNat)) ∨
    (firstSof s.unconsumed = none ∧ s.rxCount.toNat ≤ Config.noiseMax ∧
      execRxStep s = .next s) ∨
    (∃ k, firstSof s.unconsumed = some k ∧ (s.ringDrop k).rxCount.toNat < Config.rxFrameLen ∧
      execRxStep s = .next (s.ringDrop k)) ∨
    (∃ k, firstSof s.unconsumed = some k ∧ Config.rxFrameLen ≤ (s.ringDrop k).rxCount.toNat ∧
      execRxStep s = .next (s.ringDrop k).judgeCandidate) := by
  unfold execRxStep
  cases h : firstSof s.unconsumed with
  | none =>
    by_cases hc : Config.noiseMax < s.rxCount.toNat
    · simp [hc]
    · simp [hc]; omega
  | some k =>
    by_cases hc : (s.ringDrop k).rxCount.toNat < Config.rxFrameLen
    · exact .inr (.inr (.inl ⟨k, rfl, hc, if_pos hc⟩))
    · exact .inr (.inr (.inr ⟨k, rfl, Nat.le_of_not_lt hc, if_neg hc⟩))

/-- What `FX_TAKE` can do, in the order of its checks (R156, R157). -/
theorem execFxTake_cases (len : BitVec 8) (s : State) :
    (s.fxAbort = true ∧ execFxTake len s = .next (s.emit (.fxError .aborted len s.fxCur))) ∨
    (s.fxAbort = false ∧ fxInvalidLen len = true ∧
      execFxTake len s = .next (s.setFxAbort.emit (.fxError .invalidLen len s.fxCur))) ∨
    (s.fxAbort = false ∧ fxInvalidLen len = false ∧ fxOverflows s.fxCur len = true ∧
      execFxTake len s = .next (s.setFxAbort.emit (.fxError .overflow len s.fxCur))) ∨
    (s.fxAbort = false ∧ fxInvalidLen len = false ∧ fxOverflows s.fxCur len = false ∧
      execFxTake len s =
        .next ((s.emit (.fxValue (fxField s.fxData s.fxCur.toNat len.toNat) len s.fxCur)).setFxCur
          (BitVec.ofNat 7 (s.fxCur.toNat + len.toNat)))) := by
  unfold execFxTake
  cases ha : s.fxAbort <;> cases hi : fxInvalidLen len <;> cases ho : fxOverflows s.fxCur len <;>
    simp

/-- What `TMR_CONFIG` can do (R172, R84). -/
theorem execTmrConfig_cases (slot : BitVec 8) (node : BitVec 7) (fidx : BitVec 8)
    (tmo : BitVec 32) (s : State) :
    (slot.toNat < s.params.nt ∧ execTmrConfig slot node fidx tmo s =
      .next (s.setSlots (s.slots.set slot.toNat (Slot.configured node fidx tmo)))) ∨
    (s.params.nt ≤ slot.toNat ∧ execTmrConfig slot node fidx tmo s =
      .next (s.raiseIllegal .slotRange (encode (.tmrConfig slot node fidx tmo)))) := by
  unfold execTmrConfig
  by_cases h : slot.toNat < s.params.nt
  · exact .inl ⟨h, by simp [Instr.wellFormed, h]⟩
  · exact .inr ⟨by omega, by simp [Instr.wellFormed, h]⟩

/-- What one slot's part of a tick can do (R178). -/
theorem Slot.tick_cases (p : Params) (sl : Slot) :
    (sl.active = false ∧ sl.tick p = sl) ∨
    (sl.active = true ∧ sl.remAfterTick p < -(p.overdueMs : Int) ∧
      sl.tick p = { sl with rem := sl.backoff p }) ∨
    (sl.active = true ∧ -(p.overdueMs : Int) ≤ sl.remAfterTick p ∧
      sl.tick p = { sl with rem := BitVec.ofInt 32 (sl.remAfterTick p) }) := by
  unfold Slot.tick Slot.alerts
  cases ha : sl.active
  · simp
  · by_cases h : sl.remAfterTick p < -(p.overdueMs : Int)
    · simp [h]
    · simp [h]; omega

/-- A tick keeps the slot's `slot_valid` (R38, R178). -/
@[simp] theorem Slot.tick_valid (p : Params) (sl : Slot) : (sl.tick p).valid = sl.valid := by
  rcases Slot.tick_cases p sl with h | h | h <;> simp [h]

/-- A kick keeps the slot's `slot_valid` (R38, R175). -/
@[simp] theorem Slot.kick_valid (node : BitVec 7) (fidx : BitVec 8) (sl : Slot) :
    (sl.kick node fidx).valid = sl.valid := by
  unfold Slot.kick
  split <;> rfl

/-- What running a command word can do (R191, R192). -/
theorem runWord_cases (w : CmdWord) (s : State) :
    (∃ i, decode w = .ok i ∧ runWord w s = exec i s) ∨
    (∃ c, decode w = .error c ∧ runWord w s = .next (s.raiseIllegal c w)) := by
  unfold runWord
  cases h : decode w with
  | ok i => exact .inl ⟨i, rfl, rfl⟩
  | error c => exact .inr ⟨c, rfl, rfl⟩

/-- What one arbiter step at a port can do (R206). -/
theorem stepPort_cases (p : Port) (s : State) :
    (s.enabledHead p = none ∧ stepPort p s = .next s) ∨
    (∃ w, s.enabledHead p = some w ∧ stepPort p s = runWord w (s.accept p)) := by
  unfold stepPort
  cases h : s.enabledHead p with
  | none => exact .inl ⟨rfl, rfl⟩
  | some w => exact .inr ⟨w, rfl, rfl⟩

/-- What one step can do (R7, R206, R230). -/
theorem step_cases (s : State) :
    (s.params.valid = false ∧ step s = .refused .configuration) ∨
    (s.params.valid = true ∧ s.resetPin = true ∧ step s = .next s.applyReset) ∨
    (s.params.valid = true ∧ s.resetPin = false ∧ s.enabledPorts = [] ∧ step s = .next s) ∨
    (s.params.valid = true ∧ s.resetPin = false ∧
      ∃ p, arbitrate (Config.arbiterPick s.arbTurn) s.enabledPorts = some p ∧
        step s = stepPort p s) := by
  unfold step machineStep
  cases hv : s.params.valid
  · simp
  · cases hr : s.resetPin
    · cases ha : arbitrate (Config.arbiterPick s.arbTurn) s.enabledPorts with
      | none => simp [arbitrate_eq_none.1 ha]
      | some p => simp
    · simp

end Sys2Proof.Machine
end

