-- ==== Sys2Proof/Laws/Flags.lean ====
section
/-! SUPPORT. Each condition of the block as a proposition in one spelling. -/

namespace Sys2Proof.Machine

/-- The constraints of R7, spelled out. -/
theorem Params.valid_iff (p : Params) :
    p.valid = true ↔ 1 ≤ p.tickMs ∧ p.tickMs ≤ 2 ^ 20 ∧ p.overdueMs ≤ 2 ^ 20 ∧
      p.backoffMinMs ≤ 2 ^ 30 ∧ 1 ≤ p.nt ∧ p.nt ≤ 256 := by
  simp only [Params.valid, Bool.and_eq_true, decide_eq_true_eq, and_assoc]

/-- `rx_ready` (R24). -/
theorem State.rxReady_iff (s : State) : s.rxReady = true ↔ s.rxCount.toNat < 256 := by
  simp only [State.rxReady, decide_eq_true_eq]

/-- Not `rx_ready` (R24). -/
theorem State.not_rxReady_iff (s : State) : s.rxReady = false ↔ 256 ≤ s.rxCount.toNat := by
  simp only [State.rxReady, decide_eq_false_iff_not, not_lt]

/-- An active slot (R31). -/
theorem Slot.active_iff (sl : Slot) : sl.active = true ↔ sl.valid = true ∧ 0 < sl.tmo.toInt := by
  simp only [Slot.active, Bool.and_eq_true, decide_eq_true_eq]

/-- A slot's key (R30). -/
theorem Slot.keyIs_iff (sl : Slot) (node : BitVec 7) (fidx : BitVec 8) :
    sl.keyIs node fidx = true ↔ sl.node = node ∧ sl.fidx = fidx := by
  simp only [Slot.keyIs, Bool.and_eq_true, beq_iff_eq]

/-- A slot that the next tick finds overdue (R178). -/
theorem Slot.alerts_iff (p : Params) (sl : Slot) :
    sl.alerts p = true ↔
      sl.active = true ∧ sl.rem.toInt - (p.tickMs : Int) < -(p.overdueMs : Int) := by
  unfold Slot.alerts Slot.remAfterTick
  rw [Bool.and_eq_true, decide_eq_true_eq]

/-- An invalid field length (R154). -/
theorem fxInvalidLen_iff (len : BitVec 8) : fxInvalidLen len = true ↔ 32 < len.toNat := by
  simp only [fxInvalidLen, decide_eq_true_eq]

/-- A field request past bit 64 (R154). -/
theorem fxOverflows_iff (cur : BitVec 7) (len : BitVec 8) :
    fxOverflows cur len = true ↔ 64 < cur.toNat + len.toNat := by
  simp only [fxOverflows, decide_eq_true_eq]

/-- A frame validates exactly when its checksum field equals the computed checksum (R103). -/
theorem frameValid_iff (f : List Byte) :
    frameValid f = true ↔ frameRxck f = inetCksum (framePayload f) := by
  simp only [frameValid, beq_iff_eq]

/-- There is no SOF exactly when no byte is `0xFF` (R113). -/
theorem firstSof_eq_none {bs : List Byte} : firstSof bs = none ↔ 0xFF#8 ∉ bs := by
  simp only [firstSof, List.findIdx?_eq_none_iff, beq_eq_false_iff_ne]
  exact ⟨fun h hm => h _ hm rfl, fun h x hx (he : x = 0xFF#8) => h (he ▸ hx)⟩

/-- The first SOF splits a byte string after bytes that are not `0xFF` (R113). -/
theorem firstSof_append {x y : List Byte} (hx : 0xFF#8 ∉ x) :
    firstSof (x ++ 0xFF#8 :: y) = some x.length := by
  simp only [firstSof, List.findIdx?_append]
  have hn : x.findIdx? (fun b => b == Config.sof) = none := firstSof_eq_none.2 hx
  simp [hn, List.findIdx?_cons]

/-- A byte string with a SOF is bytes without one, the SOF, and the rest (R113). -/
theorem firstSof_eq_some {bs : List Byte} {k : Nat} (h : firstSof bs = some k) :
    ∃ x y, bs = x ++ 0xFF#8 :: y ∧ 0xFF#8 ∉ x ∧ x.length = k := by
  induction bs generalizing k with
  | nil => cases h
  | cons b rest ih =>
    by_cases hb : b = 0xFF#8
    · subst hb
      have : k = 0 := by simpa [firstSof, List.findIdx?_cons] using h.symm
      exact ⟨[], rest, rfl, by simp, this.symm⟩
    · have hs : (firstSof rest).map (· + 1) = some k := by
        simpa [firstSof, List.findIdx?_cons, hb] using h
      cases hr : firstSof rest with
      | none => simp [hr] at hs
      | some m =>
        obtain ⟨x, y, hxy, hx, hl⟩ := ih hr
        refine ⟨b :: x, y, by rw [hxy]; rfl, ?_, ?_⟩
        · simpa [hx] using fun h => hb h.symm
        · simp [hr] at hs; simp; omega

end Sys2Proof.Machine
end

