-- ==== Sys2Proof/Laws/PerInstr.lean ====
section
/-! SUPPORT. Statements made for every command, one lemma per constructor of Instr. -/

namespace Sys2Proof.Laws

/-- The encoded word carries the command's opcode and no nonzero reserved bit: it matches its own row
of R82, so the first two checks of validation (R191) let it pass. -/
def EncodesOwnRow.Statement (i : Instr) : Prop :=
  opcodeOfByte (cmdOpc (encode i)) = some i.opcode ∧
    encode i &&& i.opcode.mask = i.opcode.matchWord

/-- A packed word matches a row when its fields, masked by the row's, are the opcode alone. -/
theorem matches_of_fields {op : Opcode} {o a a' : BitVec 8} {k k' : BitVec 16} {d d' : BitVec 64}
    (hm : op.mask = packCmd 0xFF#8 a' k' d') (ho : op.matchWord = packCmd o 0#8 0#16 0#64)
    (ha : a &&& a' = 0#8) (hk : k &&& k' = 0#16) (hd : d &&& d' = 0#64) :
    packCmd o a k d &&& op.mask = op.matchWord := by
  have hall : o &&& 0xFF#8 = o := BitVec.and_allOnes (x := o)
  rw [hm, ho, packCmd_and_packCmd, ha, hk, hd, hall]

theorem EncodesOwnRow.nop : EncodesOwnRow.Statement .nop := by
  unfold EncodesOwnRow.Statement; decide

theorem EncodesOwnRow.rxByte (b : BitVec 8) : EncodesOwnRow.Statement (.rxByte b) :=
  ⟨by simp only [encode, cmdOpc_packCmd]; rfl,
    matches_of_fields (op := .rxByte) (a' := 0#8) (k' := 0xFFFF#16) (d' := BitVec.allOnes 64)
      (by decide) (by decide) (by simp) (by simp) (by simp)⟩

theorem EncodesOwnRow.rxStep : EncodesOwnRow.Statement .rxStep := by
  unfold EncodesOwnRow.Statement; decide

theorem EncodesOwnRow.rxError : EncodesOwnRow.Statement .rxError := by
  unfold EncodesOwnRow.Statement; decide

theorem EncodesOwnRow.txSend (len : BitVec 8) (data : BitVec 64) :
    EncodesOwnRow.Statement (.txSend len data) :=
  ⟨by simp only [encode, cmdOpc_packCmd]; rfl,
    matches_of_fields (op := .txSend) (a' := 0#8) (k' := 0xFFFF#16) (d' := 0#64)
      (by decide) (by decide) (by simp) (by simp) (by simp)⟩

theorem EncodesOwnRow.idDecode (id : BitVec 32) : EncodesOwnRow.Statement (.idDecode id) :=
  ⟨by simp only [encode, cmdOpc_packCmd]; rfl,
    matches_of_fields (op := .idDecode) (a' := 0xFF#8) (k' := 0xFFFF#16)
      (d' := 0xFFFFFFFF00000000#64)
      (by decide) (by decide) (by simp) (by simp) (setWidth_upper_zero id)⟩

theorem EncodesOwnRow.fxLoad (data : BitVec 64) : EncodesOwnRow.Statement (.fxLoad data) :=
  ⟨by simp only [encode, cmdOpc_packCmd]; rfl,
    matches_of_fields (op := .fxLoad) (a' := 0xFF#8) (k' := 0xFFFF#16) (d' := 0#64)
      (by decide) (by decide) (by simp) (by simp) (by simp)⟩

theorem EncodesOwnRow.fxTake (len : BitVec 8) : EncodesOwnRow.Statement (.fxTake len) :=
  ⟨by simp only [encode, cmdOpc_packCmd]; rfl,
    matches_of_fields (op := .fxTake) (a' := 0#8) (k' := 0xFFFF#16) (d' := BitVec.allOnes 64)
      (by decide) (by decide) (by simp) (by simp) (by simp)⟩

theorem EncodesOwnRow.tmrConfig (slot : BitVec 8) (node : BitVec 7) (fidx : BitVec 8)
    (tmo : BitVec 32) : EncodesOwnRow.Statement (.tmrConfig slot node fidx tmo) :=
  ⟨by simp only [encode, cmdOpc_packCmd]; rfl,
    matches_of_fields (op := .tmrConfig) (a' := 0#8) (k' := 0x0080#16) (d' := 0xFFFFFFFF00000000#64)
      (by decide) (by decide) (by simp) (packKey_reserved node fidx) (setWidth_upper_zero tmo)⟩

theorem EncodesOwnRow.tmrKick (node : BitVec 7) (fidx : BitVec 8) :
    EncodesOwnRow.Statement (.tmrKick node fidx) :=
  ⟨by simp only [encode, cmdOpc_packCmd]; rfl,
    matches_of_fields (op := .tmrKick) (a' := 0xFF#8) (k' := 0x0080#16) (d' := BitVec.allOnes 64)
      (by decide) (by decide) (by simp) (packKey_reserved node fidx) (by simp)⟩

theorem EncodesOwnRow.tmrTick : EncodesOwnRow.Statement .tmrTick := by
  unfold EncodesOwnRow.Statement; decide

end Sys2Proof.Laws
end

