-- ==== Sys2Proof/Tests/Slice0.lean ====
section
/-! SUPPORT. Tests of the model: ill-formed terms, words written out from spec/30_encoding.md, vectors
of spec/95_test_vectors.md (named V<n>), and for each statement with hypotheses a witness that meets
them. -/

namespace Sys2Proof.Tests

open Sys2Proof Sys2Proof.Machine

/-! ### Well-formedness, parameters, assembler ranges -/

/-- V6.15: with `NT = 4` there is no slot 4. -/
theorem test_slot_four_is_ill_formed :
    (Instr.tmrConfig 4#8 1#7 0#8 10#32).wellFormed Params.default = false := by decide

/-- Slot 3 is the last one of `NT = 4`. -/
theorem test_slot_three_is_well_formed :
    (Instr.tmrConfig 3#8 1#7 0#8 10#32).wellFormed Params.default = true := by decide

/-- R7, one refused set for each constraint. -/
theorem test_parameter_constraints :
    ([{ Params.default with tickMs := 0 }, { Params.default with tickMs := 2 ^ 20 + 1 },
      { Params.default with overdueMs := 2 ^ 20 + 1 },
      { Params.default with backoffMinMs := 2 ^ 30 + 1 }, { Params.default with nt := 0 },
      { Params.default with nt := 257 }].map Params.valid) = List.replicate 6 false := by decide

/-- R7 at the ends of its ranges, and R6's defaults. -/
theorem test_parameter_ends_are_legal :
    ([Params.default, ⟨1, 0, 0, 1, .drop⟩, ⟨2 ^ 20, 2 ^ 20, 2 ^ 30, 256, .hold⟩].map
      Params.valid) = List.replicate 3 true := by decide

/-- R87: an operand out of its field's range, and a missing operand, do not assemble. -/
theorem test_assembler_refuses :
    assemble .rxByte [⟨false, 256⟩] = none ∧ assemble .tmrKick [⟨false, 128⟩, ⟨false, 0⟩] = none ∧
      assemble .fxTake [⟨true, 1⟩] = none ∧ assemble .idDecode [] = none := by decide

/-- R87 and R89: lines of assembler text. -/
theorem test_lines_assemble :
    parseLine "TMR_CONFIG 1, 3, 0, -1".toList =
        some (.host, .tmrConfig 1#8 3#7 0#8 0xFFFFFFFF#32) ∧
      parseLine "LINK: RX_BYTE 0xFF".toList = some (.link, .rxByte 0xFF#8) ∧
      parseLine "TICK: TMR_TICK".toList = some (.tick, .tmrTick) ∧
      parseLine "RX_BYTE 0x100".toList = none := by decide

/-- Log entry 15: both letter cases of a hexadecimal digit, and leading zeros. -/
theorem test_hexadecimal_digits :
    parseLine "RX_BYTE 0xaB".toList = some (.host, .rxByte 0xAB#8) ∧
      parseLine "RX_BYTE 0x00Ab".toList = some (.host, .rxByte 0xAB#8) ∧
      parseLine "RX_BYTE 0XAB".toList = none := by decide

/-! ### Decoding: words of the spec, one for every command -/

/-- The words of R89 and of the vectors V3 to V7, with their commands. -/
def specWords : List (CmdWord × Instr) :=
  [(0x00000000_00000000_00000000#96, .nop),
    (0x00000000_00000000_0000FF01#96, .rxByte 0xFF#8),
    (0x00000000_00000000_00000002#96, .rxStep),
    (0x00000000_00000000_00000003#96, .rxError),
    (0x00000000_00030201_00000310#96, .txSend 3#8 0x30201#64),
    (0x88776655_44332211_0000C810#96, .txSend 200#8 0x8877665544332211#64),
    (0x00000000_12345678_00000020#96, .idDecode 0x12345678#32),
    (0x88776655_44332211_00000021#96, .fxLoad 0x8877665544332211#64),
    (0x00000000_00000000_00000C22#96, .fxTake 12#8),
    (0x00000000_000000C8_02050030#96, .tmrConfig 0#8 5#7 2#8 200#32),
    (0x00000000_FFFFFFFF_00030130#96, .tmrConfig 1#8 3#7 0#8 0xFFFFFFFF#32),
    (0x00000000_00000000_02050031#96, .tmrKick 5#7 2#8),
    (0x00000000_00000000_00000032#96, .tmrTick)]

/-- Each of them decodes to its command. -/
theorem test_spec_words_decode : ∀ x ∈ specWords, decode x.1 = .ok x.2 := by decide

/-- Each of their commands encodes to its word. -/
theorem test_spec_words_encode : ∀ x ∈ specWords, encode x.2 = x.1 := by decide

/-- The host's numbering of the bits is that of the command word. -/
theorem test_table_words :
    ∀ x ∈ specWords, decodeTableWord 96 x.1.toNat = some x.2 := by decide

/-- V7.2 to V7.8 and V7.12: words that decoding rejects, and why. -/
theorem test_illegal_words :
    ([0x80000000_00000000_00000000#96, 0x00000000_00000000_0001FF01#96,
        0x00000000_0000000A_00800030#96, 0x00000001_00000000_00000020#96,
        0x00000000_00000000_00050131#96, 0x00000000_00000001_00000002#96].all
        fun w => decode w = .error .reservedNonzero) = true ∧
      decode 0xFFFFFFFF_FFFFFFFF_FFFFFFFF#96 = .error .badOpcode ∧
      decode 0x00000000_00000000_00000004#96 = .error .badOpcode := by decide

/-! ### One command on a small state -/

/-- The state after some commands from reset. -/
def after (is : List Instr) : Option State :=
  match execAll is State.reset with
  | .next t => some t
  | .fault _ => none
  | .refused _ => none

/-- The reports after some commands from reset. -/
def reports (is : List Instr) : Option (List EventBody) :=
  (after is).map fun t => t.events.map Event.body

/-- The unconsumed bytes after some commands from reset. -/
def left (is : List Instr) : Option (List Byte) := (after is).map State.unconsumed

/-- Bytes from the link. -/
def feed (bs : List Byte) : List Instr := bs.map .rxByte

/-- The payload of the running example (V1.2). -/
def samplePayload : List Byte :=
  [0x85#8, 0x01#8, 0x00#8, 0x00#8, 0x11#8, 0x22#8, 0x33#8, 0x44#8, 0x55#8, 0x66#8, 0x77#8, 0x88#8]

/-- The frame of the running example (V2.2). -/
def sampleFrame : List Byte := 0xFF#8 :: 0x69#8 :: 0xA9#8 :: samplePayload

/-- V1.1 to V1.5. -/
theorem test_checksums :
    inetCksum [5#8, 0#8, 0#8, 0#8, 0#8, 0#8, 0#8, 0#8] = 0xFFFA#16 ∧
      inetCksum samplePayload = 0xA969#16 ∧ inetCksum (List.replicate 12 0#8) = 0xFFFF#16 ∧
      inetCksum (List.replicate 12 0xFF#8) = 0x0000#16 ∧
      inetCksum [1#8, 2#8, 3#8, 4#8, 5#8, 6#8, 7#8, 8#8, 9#8, 10#8, 11#8, 12#8] = 0xD5DB#16 := by
  decide

/-- V1.6 to V1.10: odd lengths and both folds. -/
theorem test_checksum_corners :
    inetCksum [1#8, 2#8, 3#8] = 0xFDFB#16 ∧
      inetCksum [0xFF#8, 0xFF#8, 0x01#8, 0x00#8] = 0xFFFE#16 ∧
      inetCksum ([0xFF#8, 0xFF#8, 0xFF#8, 0xFF#8, 0x01#8] ++ List.replicate 7 0#8) = 0xFFFE#16 ∧
      inetCksum [] = 0xFFFF#16 ∧ inetCksum [0xFF#8] = 0xFF00#16 := by decide

/-- V7.1. -/
theorem test_nop : exec .nop State.reset = .next State.reset := rfl

/-- A state with `rx_head = 250` and five unconsumed bytes (V2.1). -/
def nearTheEnd : State := { State.reset with rxHead := 250#8, rxCount := 5#9 }

/-- V2.1: the two bytes go to addresses 255 and 0. -/
theorem test_rx_byte_wraps :
    (match execAll (feed [0x12#8, 0x34#8]) nearTheEnd with
      | .next t => (t.rxb, t.rxHead, t.rxCount)
      | _ => ([], 0#8, 0#9)) = ([(0, 0x34#8), (255, 0x12#8)], 250#8, 7#9) := by decide

/-- A full ring of zeros. -/
def fullRing : State :=
  { State.reset with
    rxb := (List.range 256).map fun a => (a, 0#8)
    rxCount := 256#9 }

/-- A full ring under DROP. -/
def fullRingDrop : State :=
  { fullRing with params := { Params.default with rxFullPolicy := .drop } }

/-- V2.15. -/
theorem test_rx_byte_drop :
    exec (.rxByte 7#8) fullRingDrop =
      .next { fullRingDrop with events := [⟨.host, .rxDrop 7#8⟩] } := rfl

/-- V2.2. -/
theorem test_rx_step_delivers :
    reports (feed sampleFrame ++ [.rxStep]) =
        some [.frameOk samplePayload 0x185#32 0x8877665544332211#64 ⟨5#7, 3#4, 0#18⟩] ∧
      left (feed sampleFrame ++ [.rxStep]) = some [] := by decide

/-- V2.7: resynchronization at the inner SOF. -/
theorem test_rx_step_resynchronizes :
    reports (feed (0xFF#8 :: sampleFrame) ++ [.rxStep]) =
        some [.frameBad [0xA9#8, 0x85#8, 0x01#8, 0x00#8, 0x00#8, 0x11#8, 0x22#8, 0x33#8, 0x44#8,
            0x55#8, 0x66#8, 0x77#8] 0x69FF#16 0x6988#16 0x185A9#32 0x7766554433221100#64
          ⟨0x29#7, 0xB#4, 0x30#18⟩] ∧
      left (feed (0xFF#8 :: sampleFrame) ++ [.rxStep]) = some sampleFrame := by decide

/-- V2.13. -/
theorem test_rx_error :
    exec .rxError nearTheEnd = .next { nearTheEnd with events := [⟨.host, .ioError⟩] } := rfl

/-- V3.2 and V3.5. -/
theorem test_tx_send :
    reports [.txSend 3#8 0x30201#64, .txSend 200#8 0x8877665544332211#64] =
      some [.txFrame [0xFF#8, 0xFB#8, 0xFD#8, 1#8, 2#8, 3#8, 0#8, 0#8, 0#8, 0#8, 0#8],
        .txFrame [0xFF#8, 0xEE#8, 0xAA#8, 0x11#8, 0x22#8, 0x33#8, 0x44#8, 0x55#8, 0x66#8, 0x77#8,
          0x88#8]] := by decide

/-- V3.3: `len = 0` sends zeros. -/
theorem test_tx_send_nothing :
    reports [.txSend 0#8 0xFFFFFFFFFFFFFFFF#64] =
      some [.txFrame [0xFF#8, 0xFF#8, 0xFF#8, 0#8, 0#8, 0#8, 0#8, 0#8, 0#8, 0#8, 0#8]] := by decide

/-- V4.2, V4.6, V4.8 and V4.10. -/
theorem test_id_decode :
    ([0xFFFFFFFF#32, 0x80#32, 0x800#32, 0x12345678#32].map idFields) =
      [⟨127#7, 15#4, 262143#18⟩, ⟨0#7, 1#4, 0#18⟩, ⟨0#7, 0#4, 1#18⟩, ⟨120#7, 12#4, 149130#18⟩] := by
  decide

/-- V4.1. -/
theorem test_id_decode_reports :
    reports [.idDecode 0x185#32] = some [.idFields 0x185#32 ⟨5#7, 3#4, 0#18⟩] := by decide

/-- P4 (b): loading starts at cursor 0; the walk of 12, 20 and 32 bits. -/
theorem test_fx_walk :
    reports [.fxLoad 0x8877665544332211#64, .fxTake 12#8, .fxTake 20#8, .fxTake 32#8, .fxTake 0#8,
        .fxTake 1#8] =
      some [.fxValue 0x211#32 12#8 0#7, .fxValue 0x44332#32 20#8 12#7,
        .fxValue 0x88776655#32 32#8 32#7, .fxValue 0#32 0#8 64#7, .fxError .overflow 1#8 64#7] := by
  decide

/-- P4 (a) and V5.10 to V5.12: ABORTED before INVALID_LEN before OVERFLOW. -/
theorem test_fx_errors :
    reports [.fxTake 33#8, .fxLoad 1#64, .fxTake 32#8, .fxTake 8#8, .fxTake 40#8, .fxTake 4#8] =
      some [.fxError .aborted 33#8 0#7, .fxValue 1#32 32#8 0#7, .fxValue 0#32 8#8 32#7,
        .fxError .invalidLen 40#8 40#7, .fxError .aborted 4#8 40#7] := by decide

/-- V6.1 and V6.7. -/
theorem test_tmr_config :
    (after [.tmrConfig 0#8 5#7 2#8 200#32, .tmrConfig 1#8 3#7 0#8 0xFFFFFFFF#32, .tmrTick]).map
        State.slots =
      some [⟨true, 5#7, 2#8, 200#32, 195#32⟩, ⟨true, 3#7, 0#8, 0xFFFFFFFF#32, 0xFFFFFFFF#32⟩,
        Slot.cleared, Slot.cleared] := by decide

/-- V7.9: a slot that does not exist. -/
theorem test_tmr_config_slot_range :
    reports [.tmrConfig 4#8 1#7 0#8 10#32] =
      some [.illegal .slotRange 0x00000000_0000000A_00010430#96] := by decide

/-- V6.8: two alerts of one tick in ascending slot order, and the backoff of both. -/
theorem test_tmr_tick_alerts :
    (after ([.tmrConfig 0#8 1#7 1#8 10#32, .tmrConfig 1#8 2#7 2#8 10#32] ++
        List.replicate 4 .tmrTick)).map
        (fun t => (t.events.map Event.body, t.slots.map Slot.rem)) =
      some ([.tmrAlert 0#8 1#7 1#8, .tmrAlert 1#8 2#7 2#8], [1000#32, 1000#32, 0#32, 0#32]) := by
  decide

/-- V6.14: `-OVERDUE_MS` itself is not overdue. -/
theorem test_tmr_tick_not_yet_overdue :
    Slot.tick Params.default ⟨true, 5#7, 2#8, 200#32, 0#32⟩ =
      ⟨true, 5#7, 2#8, 200#32, BitVec.ofInt 32 (-5)⟩ := by decide

/-- V6.9: a duplicate key reloads both slots. -/
theorem test_tmr_kick :
    (after [.tmrConfig 0#8 5#7 2#8 200#32, .tmrConfig 3#8 5#7 2#8 300#32, .tmrTick,
        .tmrKick 5#7 2#8]).map (fun t => t.slots.map Slot.rem) =
      some [200#32, 0#32, 0#32, 300#32] := by decide

/-- V6.10: no slot has the key. -/
theorem test_tmr_kick_no_match :
    (after [.tmrConfig 0#8 5#7 2#8 200#32, .tmrTick, .tmrKick 6#7 2#8]).map
      (fun t => t.slots.map Slot.rem) = some [195#32, 0#32, 0#32, 0#32] := by decide

/-! ### Steps from reset -/

/-- The host's placing of a word: the next step runs it (V7.10). -/
theorem test_step_runs_a_placed_word :
    (match step (State.reset.withFetchWord 96 0x3) with
      | .next t => (t.events, t.complete)
      | _ => ([], false)) = ([⟨.host, .ioError⟩], true) := by decide

/-- V7.3. -/
theorem test_step_reports_an_illegal_word :
    (match step (State.reset.withFetchWord 96 (2 ^ 96 - 1)) with
      | .next t => t.events
      | _ => []) = [⟨.host, .illegal .badOpcode 0xFFFFFFFF_FFFFFFFF_FFFFFFFF#96⟩] := by decide

/-- R44 and R50: the ring's contents have their canonical form at reset. -/
theorem test_reset_memory_wf : State.reset.rxb.wf = true := rfl

/-! ### Witnesses of the statements' hypotheses -/

/-- A state with `LINK` waiting to deliver one byte. -/
def oneByteWaiting : State := State.reset.present .link (encode (.rxByte 0xFF#8))

/-- A state with commands on two ports. -/
def twoPortsWaiting : State := oneByteWaiting.present .core (encode .rxStep)

/-- A full ring under HOLD whose only waiting command is an `RX_BYTE` (V2.14). -/
def stuckState : State := fullRing.present .link (encode (.rxByte 7#8))

/-- A full ring under DROP with a waiting `RX_BYTE`. -/
def dropState : State := fullRingDrop.present .link (encode (.rxByte 7#8))

/-- Slot 0 watches the key (5, 2) with 200 ms (V6.1). -/
def watching : State :=
  State.reset.setSlots
    [⟨true, 5#7, 2#8, 200#32, 200#32⟩, Slot.cleared, Slot.cleared, Slot.cleared]

/-- The same with slot 0 at -5 ms, one tick before its alert (V6.2). -/
def almostOverdue : State :=
  State.reset.setSlots
    [⟨true, 5#7, 2#8, 200#32, BitVec.ofInt 32 (-5)⟩, Slot.cleared, Slot.cleared, Slot.cleared]

/-- Unconsumed bytes from address 0 on, written out as data. -/
def holding (bs : List Byte) : State :=
  { State.reset with
    rxb := bs.zipIdx.map fun x => (x.2, x.1)
    rxCount := BitVec.ofNat 9 bs.length }

/-- Witness of NopChangesNothing. -/
theorem witness_nop_words :
    (0#96 : CmdWord).toNat % 256 = 0 ∧ (0x80000000_00000000_00000000#96 : CmdWord).toNat % 256 = 0 := by
  decide

/-- Witness of EncodeOfDecodeIsTheWord. -/
theorem witness_encode_of_decode :
    decode 0x00000000_00000000_02050031#96 = .ok (.tmrKick 5#7 2#8) := by decide

/-- Witness of CommandWordsAreThoseOfMatchAndMask. -/
theorem witness_match_and_mask :
    (0x0000FF01#96 : CmdWord) &&& 0xFFFFFFFFFFFFFFFFFFFF00FF#96 = 0x01#96 ∧
      (0xFFFFFFFF_00000000_00000021#96 : CmdWord) &&& 0x0000000000000000FFFFFFFF#96 = 0x21#96 := by
  decide

/-- Witness of RejectedWordsAndTheirCauses. -/
theorem witness_rejected_words :
    decode 0x00000000_00000000_000000FF#96 = .error .badOpcode ∧
      decode 0x00000000_00000001_00000032#96 = .error .reservedNonzero := by decide

/-- Witness of StepRunsTheDecodedCommand. -/
theorem witness_step_runs :
    oneByteWaiting.ports.get .link = [0x0000FF01#96] ∧
      decode 0x0000FF01#96 = .ok (.rxByte 0xFF#8) ∧
      oneByteWaiting.enabledHead .link = some 0x0000FF01#96 ∧
      oneByteWaiting.params.valid = true ∧ oneByteWaiting.resetPin = false ∧
      arbitrate (Config.arbiterPick oneByteWaiting.arbTurn) oneByteWaiting.enabledPorts =
        some .link := ⟨rfl, rfl, rfl, rfl, rfl, rfl⟩

/-- Witness of IllegalWordIsReportedAndChangesNothing. -/
theorem witness_illegal_word :
    ((State.reset.present .tick 0x04#96).ports.get .tick = [0x04#96] ∧
        decode 0x04#96 = .error .badOpcode) ∧
      (stuckState.present .core 0x0001FF01#96).ports.get .core = [0x0001FF01#96] ∧
        decode 0x0001FF01#96 = .error .reservedNonzero := by decide

/-- Witness of ArbiterMayPickEveryEnabledPort. -/
theorem witness_arbiter :
    twoPortsWaiting.enabledPorts = [.link, .core] ∧
      (stuckState.present .core (encode .rxStep)).enabledPorts = [.core] ∧
      arbitrate 1 twoPortsWaiting.enabledPorts = some .core := by decide

/-- Witness of StepIsAnArbiterPickOrAWait. -/
theorem witness_step_is_pick_or_wait :
    State.reset.params.valid = true ∧ State.reset.resetPin = false ∧
      State.reset.enabledPorts = [] ∧ twoPortsWaiting.params.valid = true ∧
      twoPortsWaiting.resetPin = false ∧ twoPortsWaiting.enabledPorts ≠ [] := by decide

/-- Witness of ArbiterStepKeepsPortOrder. -/
theorem witness_port_order :
    (∃ t, stepPort .core twoPortsWaiting = .next t) ∧
      twoPortsWaiting.enabledHead .core = some (encode .rxStep) ∧
      (∃ t, stepPort .link stuckState = .next t) ∧ stuckState.enabledHead .link = none :=
  ⟨⟨_, rfl⟩, rfl, ⟨_, rfl⟩, rfl⟩

/-- Witness of BadConfigurationGetsNoRun. -/
theorem witness_configuration :
    (State.resetWith { Params.default with nt := 257 }).params.nt = 257 ∧
      (State.resetWith ⟨1, 0, 0, 256, .drop⟩).params.valid = true := by decide

/-- Witness of StuckRunIsReleasedByReset. -/
theorem witness_stuck :
    stuckState.params.valid = true ∧ stuckState.resetPin = false ∧ stuckState.stuck = true := by
  decide

/-- Witness of ResetValuesOfR44. -/
theorem witness_reset_values :
    (3 : Nat) < Params.default.nt ∧ State.reset.slots[3]? = some Slot.cleared := by decide

/-- Witness of ResetInputResetsStateAndKeepsEvents. -/
theorem witness_reset_input :
    almostOverdue.assertReset.params.valid = true ∧ almostOverdue.assertReset.resetPin = true := by
  decide

/-- Witness of ChecksumFoldsAreExact and ChecksumDetectsEveryBitFlip. -/
theorem witness_checksum_length :
    (2 ^ 32 - 1 : Nat) < 2 ^ 32 ∧ samplePayload.length ≤ 131070 ∧
      samplePayload[0]? = some 0x85#8 ∧ (7 : Nat) < 8 := by decide

/-- Witness of ChecksumZeroAndAllOnes, both directions. -/
theorem witness_checksum_zero :
    wordSum (List.replicate 12 0xFF#8) ≠ 0 ∧ wordSum (List.replicate 12 0xFF#8) % 0xFFFF = 0 ∧
      ∀ b ∈ List.replicate 12 0#8, b = 0#8 := by decide

/-- Witness of ChecksumIgnoresWordOrder. -/
theorem witness_word_order :
    [(1#8, 2#8), (3#8, 4#8)].Perm [(3#8, 4#8), (1#8, 2#8)] := List.Perm.swap _ _ _

/-- Witness of RxByteAppendsOneByte. -/
theorem witness_rx_byte :
    State.reset.rxCount.toNat < 256 ∧ (holding (List.replicate 255 0#8)).rxCount.toNat = 255 := by
  decide +kernel

/-- Witness of RxByteAtAFullRing. -/
theorem witness_rx_byte_full :
    (stuckState.rxCount.toNat = 256 ∧ stuckState.params.rxFullPolicy = .hold ∧
        stuckState.ports.get .link = [encode (.rxByte 7#8)]) ∧
      dropState.rxCount.toNat = 256 ∧ dropState.params.rxFullPolicy = .drop ∧
        dropState.ports.get .link = [encode (.rxByte 7#8)] := by decide

/-- Witness of RxStepDiscardsStaleNoise, 128 and 129 bytes. -/
theorem witness_noise :
    (0xFF#8 ∉ (holding (List.replicate 128 0#8)).unconsumed ∧
        (holding (List.replicate 128 0#8)).rxCount.toNat = 128) ∧
      0xFF#8 ∉ (holding (List.replicate 129 0#8)).unconsumed ∧
        (holding (List.replicate 129 0#8)).rxCount.toNat = 129 := by decide +kernel

/-- Witness of RxStepAlignsAndWaits. -/
theorem witness_alignment :
    (holding (0#8 :: 0xFF#8 :: List.replicate 13 1#8)).unconsumed =
        [0#8] ++ 0xFF#8 :: List.replicate 13 1#8 ∧
      0xFF#8 ∉ [0#8] ∧ (List.replicate 13 1#8).length < 14 := by decide +kernel

/-- Witness of RxStepDeliversAValidFrame. -/
theorem witness_valid_frame :
    (holding (0x13#8 :: sampleFrame ++ [0xAA#8])).unconsumed =
        [0x13#8] ++ 0xFF#8 :: 0x69#8 :: 0xA9#8 :: (samplePayload ++ [0xAA#8]) ∧
      0xFF#8 ∉ [0x13#8] ∧ samplePayload.length = 12 ∧
      (inetCksum samplePayload).toNat = (0x69#8).toNat + 256 * (0xA9#8).toNat := by decide +kernel

/-- Witness of RxStepResynchronizesOnMismatch. V2.7: a candidate that does not validate. -/
theorem witness_mismatch :
    (holding (0xFF#8 :: sampleFrame)).unconsumed =
        [] ++ 0xFF#8 :: 0xFF#8 :: 0x69#8 :: ((0xA9#8 :: samplePayload.take 11) ++ [0x88#8]) ∧
      (0xA9#8 :: samplePayload.take 11).length = 12 ∧
      (inetCksum (0xA9#8 :: samplePayload.take 11)).toNat ≠
        (0xFF#8).toNat + 256 * (0x69#8).toNat := by decide +kernel

/-- Witness of RxStepResynchronizesOnMismatch. V2.9: a mismatch without an inner SOF. -/
theorem witness_mismatch_without_sof :
    (holding (0xFF#8 :: 0#8 :: 0#8 :: samplePayload)).unconsumed =
        [] ++ 0xFF#8 :: 0#8 :: 0#8 :: (samplePayload ++ []) ∧
      (inetCksum samplePayload).toNat ≠ (0#8).toNat + 256 * (0#8).toNat := by decide +kernel

/-- Witness of RxStepProgressesOrWaits. Both wait states, a state that is neither, and a full
ring (R121). -/
theorem witness_progress :
    (holding (sampleFrame.take 14)).unconsumed.head? = some 0xFF#8 ∧
      (holding (sampleFrame.take 14)).rxCount.toNat = 14 ∧
      (holding sampleFrame).rxCount.toNat = 15 ∧ fullRing.rxCount.toNat = 256 := by decide +kernel

/-- Witness of RxStepSeesOnlyUnconsumedBytes. Equal unconsumed bytes at different places of the
ring. -/
theorem witness_only_unconsumed :
    (holding [0xFF#8]).unconsumed =
        ({ holding [0x12#8, 0xFF#8] with rxHead := 1#8, rxCount := 1#9 } : State).unconsumed ∧
      (∃ t, exec .rxStep (holding [0xFF#8]) = .next t) ∧
      ∃ t, exec .rxStep { holding [0x12#8, 0xFF#8] with rxHead := 1#8, rxCount := 1#9 } =
        .next t := ⟨by decide, ⟨_, rfl⟩, ⟨_, rfl⟩⟩

/-- Witness of ResynchronizationReachesTheValidFrame. -/
theorem witness_resynchronization :
    (holding (0xFF#8 :: sampleFrame)).unconsumed =
        [0xFF#8] ++ 0xFF#8 :: 0x69#8 :: 0xA9#8 :: (samplePayload ++ []) ∧
      samplePayload.length = 12 ∧
      (inetCksum samplePayload).toNat = (0x69#8).toNat + 256 * (0xA9#8).toNat := by decide +kernel

/-- Witness of SplitFrameIsDeliveredOnce. -/
theorem witness_split :
    State.reset.rxCount = 0#9 ∧ samplePayload.length = 12 ∧
      (inetCksum samplePayload).toNat = (0x69#8).toNat + 256 * (0xA9#8).toNat := by decide

/-- Witness of DivisionAmongStepsDoesNotMatter. Two divisions of the same two bytes among steps. -/
theorem witness_division :
    State.reset.rxCount = 0#9 ∧
      (∀ i ∈ [Instr.rxByte 0xFF#8, .rxStep, .rxByte 1#8] ++ [.rxByte 0xFF#8, .rxByte 1#8],
        i = .rxStep ∨ ∃ b, i = .rxByte b) ∧
      linkBytes [.rxByte 0xFF#8, .rxStep, .rxByte 1#8] = linkBytes [.rxByte 0xFF#8, .rxByte 1#8] ∧
      NeverFull [.rxByte 0xFF#8, .rxStep, .rxByte 1#8] State.reset ∧
      NeverFull [.rxByte 0xFF#8, .rxByte 1#8] State.reset := by
  refine ⟨rfl, by simp, rfl, ?_, ?_⟩
  · refine ⟨fun _ _ => by decide, fun t h => ?_⟩
    cases h
    refine ⟨fun b h => (by cases h), fun t h => ?_⟩
    cases h
    exact ⟨fun _ _ => by decide, fun _ _ => trivial⟩
  · refine ⟨fun _ _ => by decide, fun t h => ?_⟩
    cases h
    exact ⟨fun _ _ => by decide, fun _ _ => trivial⟩

/-- Witness of OutboundStreamGrowsByWholeFrames. -/
theorem witness_outbound :
    (∃ t, exec (.txSend 8#8 5#64) State.reset = .next t) ∧ ∃ t, exec .rxError State.reset = .next t :=
  ⟨⟨_, rfl⟩, ⟨_, rfl⟩⟩

/-- Witness of OwnReceiverWaitsOnAnOutboundFrame. -/
theorem witness_own_receiver : State.reset.rxCount = 0#9 := rfl

/-- Witness of FxTakeReportsAFieldOrTheFirstError. Each branch of `FX_TAKE` at its boundary: len
33, cursor 33 with len 32, cursor 32 with len 32. -/
theorem witness_fx_take :
    State.reset.fxAbort = true ∧ (32 : Nat) < (33#8).toNat ∧
      (64 : Nat) < ({ State.reset with fxCur := 33#7, fxAbort := false } : State).fxCur.toNat +
        (32#8).toNat ∧
      ({ State.reset with fxCur := 32#7, fxAbort := false } : State).fxCur.toNat +
        (32#8).toNat = 64 := by decide

/-- Witness of WalkOfSixtyFourBitsReassemblesTheWord. -/
theorem witness_walk :
    (∀ len ∈ [12#8, 20#8, 32#8, 0#8], len.toNat ≤ 32) ∧
      ([12#8, 20#8, 32#8, 0#8].map BitVec.toNat).sum = 64 := by decide

/-- Witness of WalkPastTheEndOverflowsOnceThenAborts. -/
theorem witness_walk_past_the_end :
    (∀ l ∈ [32#8, 16#8], l.toNat ≤ 32) ∧ (17#8).toNat ≤ 32 ∧
      ([32#8, 16#8].map BitVec.toNat).sum ≤ 64 ∧
      64 < ([32#8, 16#8].map BitVec.toNat).sum + (17#8).toNat ∧ [32#8, 16#8][1]? = some 16#8 := by
  decide

/-- Witness of TmrConfigWritesAndSeedsOneSlot and TmrConfigOfAMissingSlotIsIllegal. -/
theorem witness_tmr_config :
    State.reset.slots.length = State.reset.params.nt ∧ (3#8).toNat < State.reset.params.nt ∧
      State.reset.params.nt ≤ (4#8).toNat ∧
      decode 0x00000000_0000000A_00010430#96 = .ok (.tmrConfig 4#8 1#7 0#8 10#32) := by decide

/-- Witness of TmrKickReloadsEveryActiveMatch. -/
theorem witness_tmr_kick :
    almostOverdue.slots[0]? = some ⟨true, 5#7, 2#8, 200#32, BitVec.ofInt 32 (-5)⟩ ∧
      almostOverdue.slots[1]? = some Slot.cleared := by decide

/-- Witness of TmrTickCountsDownAlertsAndBacksOff. The slots of `TMR_TICK` at both ends of R32's
range. -/
theorem witness_tmr_tick :
    (watching.params.valid = true ∧ ∀ sl ∈ watching.slots, sl.valid = true → 0 < sl.tmo.toInt →
        -(watching.params.overdueMs : Int) ≤ sl.rem.toInt ∧
          sl.rem.toInt ≤ max sl.tmo.toInt (watching.params.backoffMinMs : Int)) ∧
      almostOverdue.params.valid = true ∧
      ∀ sl ∈ almostOverdue.slots, sl.valid = true → 0 < sl.tmo.toInt →
        -(almostOverdue.params.overdueMs : Int) ≤ sl.rem.toInt ∧
          sl.rem.toInt ≤ max sl.tmo.toInt (almostOverdue.params.backoffMinMs : Int) := by decide

/-- The invariant holds with a slot one tick before its alert. -/
theorem witness_invariant : almostOverdue.Inv where
  paramsValid := by decide
  memoryWf := by decide
  countBound := by decide
  ringWritten := fun k hk => absurd hk (by simp [almostOverdue, State.setSlots, State.reset,
    State.resetWith])
  slotCount := by decide
  slotRange := by decide
  cursorBound := by decide

/-- Witness of StepKeepsTheInvariant. The invariant holds with a byte in the ring, and the step
of a waiting byte answers next. -/
theorem witness_step_keeps :
    ((holding [0xFF#8]).present .link (encode (.rxByte 1#8))).Inv ∧
      ∃ t, step ((holding [0xFF#8]).present .link (encode (.rxByte 1#8))) = .next t :=
  ⟨⟨by decide, by decide, by decide, by decide, by decide, by decide, by decide⟩, ⟨_, rfl⟩⟩

/-- Witness of SlotAlertsOnTickNOfV and KickAndTickRaceHasTwoOutcomes. -/
theorem witness_active_slot :
    almostOverdue.Inv ∧
      almostOverdue.slots[0]? = some ⟨true, 5#7, 2#8, 200#32, BitVec.ofInt 32 (-5)⟩ ∧
      Slot.active ⟨true, 5#7, 2#8, 200#32, BitVec.ofInt 32 (-5)⟩ = true :=
  ⟨witness_invariant, by decide, by decide⟩

/-- Witness of KickAndTickRaceHasTwoOutcomes. A slot for which the overdue case of R181 arises,
`slot_tmo < TICK_MS - OVERDUE_MS` (V6.13). -/
theorem witness_race_overdue :
    ((State.resetWith { Params.default with overdueMs := 0, nt := 1 }).setSlots
        [⟨true, 5#7, 2#8, 3#32, 3#32⟩]).Inv ∧
      Slot.active ⟨true, 5#7, 2#8, 3#32, 3#32⟩ = true ∧
      (3#32 : BitVec 32).toInt < (5 : Int) - (0 : Nat) :=
  ⟨⟨by decide, by decide, by decide, by decide, by decide, by decide, by decide⟩, by decide,
    by decide⟩

/-- Witness of SeedConfiguresTheFirstSlotsInOrder. -/
theorem witness_seed :
    State.reset.slots.length = State.reset.params.nt ∧ State.reset.params.nt ≤ 256 ∧
      (List.replicate 4 (1#7, 2#8, 3#32)).length ≤ State.reset.params.nt ∧
      State.reset.params.nt < (List.replicate 5 (1#7, 2#8, 3#32)).length := by decide

/-- Witness of EventStreamIsAppendOnlyAndTagged. -/
theorem witness_event_stream :
    (∃ t, step oneByteWaiting = .next t) ∧ ∃ t, stepPort .core twoPortsWaiting = .next t :=
  ⟨⟨_, rfl⟩, ⟨_, rfl⟩⟩

/-- Witness of CommandMeansTheSameOnEveryPort and StateIsWrittenOnlyByItsCommands. -/
theorem witness_exec : ∃ t, exec .tmrTick almostOverdue = .next t := ⟨_, rfl⟩

/-- Witness of FlagsChangeOnlyAsR38Says. Each flag's change (R38). -/
theorem witness_flags :
    (after [.fxLoad 1#64]).map State.fxAbort = some false ∧
      (after [.fxLoad 1#64, .fxTake 33#8]).map State.fxAbort = some true ∧
      State.reset.slots[3]?.map Slot.valid = some false ∧
      ((after [.tmrConfig 3#8 5#7 2#8 200#32]).bind fun t => t.slots[3]?.map Slot.valid) =
        some true ∧
      almostOverdue.slots[0]?.map Slot.valid = some true := by decide

/-- Witness of InvariantHoldsAtReset. -/
theorem witness_legal_parameters : (⟨2 ^ 20, 2 ^ 20, 2 ^ 30, 256, .drop⟩ : Params).valid = true := by
  decide

/-- Witness of EveryReachableStateHasTheInvariant. -/
theorem witness_reachable :
    Params.default.valid = true ∧ Reachable Params.default oneByteWaiting.assertReset :=
  ⟨by decide, .move (.move .start (.present _ _ _)) (.assertReset _)⟩

/-- Witness of AssemblerReachesEveryCommandAndChecksRanges: each range's last value and the next one. -/
theorem witness_assembler :
    assemble .fxTake [⟨false, 255⟩] = some (.fxTake 255#8) ∧ assemble .fxTake [⟨false, 256⟩] = none ∧
      assemble .txSend [⟨false, 8⟩, ⟨false, 2 ^ 64 - 1⟩] = some (.txSend 8#8 (-1)) ∧
      assemble .txSend [⟨false, 8⟩, ⟨false, 2 ^ 64⟩] = none ∧
      assemble .tmrKick [⟨false, 127⟩, ⟨false, 2⟩] = some (.tmrKick 127#7 2#8) ∧
      assemble .tmrKick [⟨true, 0⟩, ⟨false, 2⟩] = none := by decide

/-- Witness of AssemblerReachesEveryCommandAndChecksRanges: both ends of `tmo`, and a missing operand. -/
theorem witness_assembler_tmo :
    assemble .tmrConfig [⟨false, 0⟩, ⟨false, 5⟩, ⟨false, 2⟩, ⟨true, 2 ^ 31⟩] =
        some (.tmrConfig 0#8 5#7 2#8 0x80000000#32) ∧
      assemble .tmrConfig [⟨false, 0⟩, ⟨false, 5⟩, ⟨false, 2⟩, ⟨false, 2 ^ 31⟩] = none ∧
      assemble .tmrConfig [⟨false, 0⟩, ⟨false, 5⟩, ⟨false, 2⟩] = none := by decide

/-- Witness of EventsHaveTheCodesOfR201AndR202. -/
theorem witness_event_codes :
    ∃ t, exec .rxError State.reset = .next t ∧ t.events.map (fun e => e.body.code) = [0x03#8] :=
  ⟨_, rfl, rfl⟩

end Sys2Proof.Tests
end

section
/-! PROOFS. Steps always answer a next state: no command, no word and no arbiter pick stops the block,
so the configuration check alone decides between a run and a refusal (R7, R203). -/

namespace Sys2Proof.Machine

/-- Every command completes (R203). -/
theorem exec_completes (i : Instr) (s : State) : ∃ t, exec i s = .next t := by
  cases i with
  | rxByte b =>
    obtain ⟨_, h⟩ | ⟨_, _, h⟩ | ⟨_, _, h⟩ := execRxByte_cases b s
    all_goals exact ⟨_, h⟩
  | rxStep =>
    obtain ⟨_, _, h⟩ | ⟨_, _, h⟩ | ⟨_, _, _, h⟩ | ⟨_, _, _, h⟩ := execRxStep_cases s
    all_goals exact ⟨_, h⟩
  | fxTake len =>
    obtain ⟨_, h⟩ | ⟨_, _, h⟩ | ⟨_, _, _, h⟩ | ⟨_, _, _, h⟩ := execFxTake_cases len s
    all_goals exact ⟨_, h⟩
  | tmrConfig slot node fidx tmo =>
    obtain ⟨_, h⟩ | ⟨_, h⟩ := execTmrConfig_cases slot node fidx tmo s
    all_goals exact ⟨_, h⟩
  | nop | rxError | txSend | idDecode | fxLoad | tmrKick | tmrTick => exact ⟨_, rfl⟩

/-- Every command word completes: a legal one by its command, an illegal one by its event (R192). -/
theorem runWord_completes (w : CmdWord) (s : State) : ∃ t, runWord w s = .next t := by
  obtain ⟨i, _, h⟩ | ⟨_, _, h⟩ := runWord_cases w s
  · exact h ▸ exec_completes i s
  · exact ⟨_, h⟩

/-- An arbiter step at any port completes, whether or not its head is enabled (R206). -/
theorem stepPort_completes (p : Port) (s : State) : ∃ t, stepPort p s = .next t := by
  obtain ⟨_, h⟩ | ⟨w, _, h⟩ := stepPort_cases p s
  · exact ⟨_, h⟩
  · exact h ▸ runWord_completes w (s.accept p)

/-- Under a configuration that breaks R7 the step is refused. -/
theorem step_refused_of_invalid {s : State} (hv : ¬s.params.valid = true) :
    step s = .refused .configuration := by
  obtain ⟨_, h⟩ | ⟨hv', _⟩ | ⟨hv', _⟩ | ⟨hv', _⟩ := step_cases s
  · exact h
  all_goals exact absurd hv' hv

/-- Under a legal configuration the step answers a next state: by reset, by waiting, or by the picked
port's command (R206, R214, R230). -/
theorem step_completes_of_valid {s : State} (hv : s.params.valid = true) :
    ∃ t, step s = .next t := by
  obtain ⟨hv', _⟩ | ⟨_, _, h⟩ | ⟨_, _, _, h⟩ | ⟨_, _, p, _, h⟩ := step_cases s
  · simp [hv] at hv'
  · exact ⟨_, h⟩
  · exact ⟨_, h⟩
  · exact h ▸ stepPort_completes p s

/-- Settles O11: R7's bounds are `Params.valid`, the check each step begins with. -/
theorem badConfigurationGetsNoRun : Obligations.BadConfigurationGetsNoRun := by
  intro s
  simp only [← Params.valid_iff]
  exact ⟨step_refused_of_invalid, step_completes_of_valid⟩

end Sys2Proof.Machine
end

section
/-! PROOFS. The state after reset (R44), over the parameters of R6. -/

namespace Sys2Proof.Machine

/-- The timer table after reset has its `NT` slots (R30). -/
@[simp] theorem State.resetWith_slots_length (p : Params) : (State.resetWith p).slots.length = p.nt :=
  List.length_replicate

/-- Each of the `NT` slots is cleared after reset (R44). -/
theorem State.resetWith_slots_getElem? (p : Params) {j : Nat} (hj : j < p.nt) :
    (State.resetWith p).slots[j]? = some Slot.cleared :=
  List.getElem?_replicate_of_lt hj

/-- Settles O13: the scalar items and the defaults of R6 are the fields of `State.resetWith` and
`Params.default` as written; the table is cleared slot by slot. -/
theorem resetValuesOfR44 : Obligations.ResetValuesOfR44 := by
  refine ⟨fun p => ⟨rfl, rfl, rfl, rfl, rfl, ?slotCount, ?slotCleared⟩, rfl, rfl, rfl, rfl, rfl⟩
  case slotCount => exact State.resetWith_slots_length p
  case slotCleared => exact fun _ hj => State.resetWith_slots_getElem? p hj

end Sys2Proof.Machine
end

section
/-! PROOFS. The views of an inbound payload and the words its checksum sums (R52, R53, R72). -/

namespace Sys2Proof.Machine

/-- The two 16-bit pieces of a 32-bit view are the little-endian words of its bytes (R53). -/
theorem le32_words (b0 b1 b2 b3 : Byte) :
    (le32 b0 b1 b2 b3).toNat % 2 ^ 16 = (le16 b0 b1).toNat ∧
      (le32 b0 b1 b2 b3).toNat / 2 ^ 16 = (le16 b2 b3).toNat := by
  have hlow := (le16 b0 b1).isLt
  have hsplit : (le32 b0 b1 b2 b3).toNat =
      (le16 b0 b1).toNat + 2 ^ 16 * (le16 b2 b3).toNat := by
    rw [le32_toNat, le16_toNat, le16_toNat]
    omega
  omega

/-- A 64-bit view is its two 32-bit halves, the half at the lower stream position below (R52). -/
theorem le64_halves (b0 b1 b2 b3 b4 b5 b6 b7 : Byte) :
    (le64 b0 b1 b2 b3 b4 b5 b6 b7).toNat =
      (le32 b0 b1 b2 b3).toNat + 2 ^ 32 * (le32 b4 b5 b6 b7).toNat := by
  rw [le64_toNat, le32_toNat, le32_toNat]
  omega

/-- The four 16-bit pieces of a 64-bit view are the little-endian words of its bytes (R53). -/
theorem le64_words (b0 b1 b2 b3 b4 b5 b6 b7 : Byte) :
    (le64 b0 b1 b2 b3 b4 b5 b6 b7).toNat % 2 ^ 16 = (le16 b0 b1).toNat ∧
      (le64 b0 b1 b2 b3 b4 b5 b6 b7).toNat / 2 ^ 16 % 2 ^ 16 = (le16 b2 b3).toNat ∧
      (le64 b0 b1 b2 b3 b4 b5 b6 b7).toNat / 2 ^ 32 % 2 ^ 16 = (le16 b4 b5).toNat ∧
      (le64 b0 b1 b2 b3 b4 b5 b6 b7).toNat / 2 ^ 48 = (le16 b6 b7).toNat := by
  have hlow := (le32 b0 b1 b2 b3).isLt
  have hhalves := le64_halves b0 b1 b2 b3 b4 b5 b6 b7
  obtain ⟨h0, h1⟩ := le32_words b0 b1 b2 b3
  obtain ⟨h2, h3⟩ := le32_words b4 b5 b6 b7
  omega

/-- Settles O20: the views are `le32` and `le64` of their bytes, and the word sum adds the pieces
that `le32_words` and `le64_words` identify. -/
theorem payloadViewsAreLittleEndian : Obligations.PayloadViewsAreLittleEndian := by
  intro b0 b1 b2 b3 b4 b5 b6 b7 b8 b9 b10 b11 p id d
  refine ⟨le32_toNat b0 b1 b2 b3, le64_toNat b4 b5 b6 b7 b8 b9 b10 b11, ?words⟩
  case words =>
    have hid : id = (le32 b0 b1 b2 b3).toNat := rfl
    have hd : d = (le64 b4 b5 b6 b7 b8 b9 b10 b11).toNat := rfl
    obtain ⟨w0, w1⟩ := le32_words b0 b1 b2 b3
    obtain ⟨w2, w3, w4, w5⟩ := le64_words b4 b5 b6 b7 b8 b9 b10 b11
    rw [hid, hd, w0, w1, w2, w3, w4, w5]
    simp only [p, wordSum, Nat.add_zero, Nat.add_assoc]

end Sys2Proof.Machine
end

section
/-! PROOFS. Decoding as the rows of R82: a word decodes to a command exactly when it matches the row of
that command's opcode, and the rows exclude each other because their opcodes differ (R81 to R83). -/

namespace Sys2Proof.Machine
open Sys2Proof.Laws

/-! ### The opcode map (R81) and the rows (R82) -/

/-- The opcode map reads every opcode back from its byte. -/
@[simp] theorem opcodeOfByte_toByte (op : Opcode) : opcodeOfByte op.toByte = some op := by
  cases op <;> rfl

/-- The operands of R83 are assembled into a command of the same opcode. -/
@[simp] theorem opcode_operands (op : Opcode) (w : CmdWord) : (op.operands w).opcode = op := by
  cases op <;> rfl

/-- Every mask of R82 has a 1 in each bit of `opc`. -/
theorem cmdOpc_mask (op : Opcode) : cmdOpc op.mask = BitVec.allOnes 8 := by
  cases op <;> rfl

/-- The match word of R82 carries the opcode of R81. -/
theorem cmdOpc_matchWord (op : Opcode) : cmdOpc op.matchWord = op.toByte := by
  cases op <;> rfl

/-- A word that matches a row has that row's `opc`. -/
theorem cmdOpc_of_matches {op : Opcode} {w : CmdWord} (h : w &&& op.mask = op.matchWord) :
    cmdOpc w = op.toByte :=
  calc cmdOpc w
    _ = cmdOpc w &&& cmdOpc op.mask := by rw [cmdOpc_mask, BitVec.and_allOnes]
    _ = cmdOpc (w &&& op.mask) := BitVec.extractLsb'_and.symm
    _ = op.toByte := by rw [h, cmdOpc_matchWord]

/-- No word matches the rows of two opcodes (R82). -/
theorem opcode_unique_of_matches {op op' : Opcode} {w : CmdWord} (h : w &&& op.mask = op.matchWord)
    (h' : w &&& op'.mask = op'.matchWord) : op = op' := by
  have hbyte : op.toByte = op'.toByte := (cmdOpc_of_matches h).symm.trans (cmdOpc_of_matches h')
  have hsome : some op = some op' := by
    rw [← opcodeOfByte_toByte op, hbyte, opcodeOfByte_toByte]
  exact Option.some.inj hsome

/-! ### Decoding -/

/-- A word of a row decodes to the row's command with the operands of R83. -/
theorem decode_of_matches {op : Opcode} {w : CmdWord} (h : w &&& op.mask = op.matchWord) :
    decode w = .ok (op.operands w) := by
  simp only [decode, cmdOpc_of_matches h, opcodeOfByte_toByte, h, if_true]

/-- What decoding accepts: the words of the command's row, with the operands of R83. -/
theorem decode_eq_ok_iff {w : CmdWord} {i : Instr} :
    decode w = .ok i ↔ w &&& i.opcode.mask = i.opcode.matchWord ∧ i.opcode.operands w = i := by
  constructor
  · intro h
    unfold decode at h
    split at h
    · cases h
    · next op _ =>
      split at h
      · next hmatch =>
        cases h
        rw [opcode_operands]
        exact ⟨hmatch, rfl⟩
      · cases h
  · rintro ⟨hmatch, hoperands⟩
    rw [decode_of_matches hmatch, hoperands]

/-- The words of an opcode's commands are those of its row (R82). -/
theorem decodes_to_opcode_iff (w : CmdWord) (op : Opcode) :
    (∃ i, decode w = .ok i ∧ i.opcode = op) ↔ w &&& op.mask = op.matchWord := by
  constructor
  · rintro ⟨i, hdecode, rfl⟩
    obtain ⟨hmatch, _⟩ := decode_eq_ok_iff.mp hdecode
    exact hmatch
  · intro hmatch
    exact ⟨op.operands w, decode_of_matches hmatch, opcode_operands op w⟩

/-- Settles O3: the rows written out are the masks and match words of the model's opcodes, so both
parts are facts about an opcode's row. -/
theorem commandWordsAreThoseOfMatchAndMask : Obligations.CommandWordsAreThoseOfMatchAndMask := by
  unfold Obligations.CommandWordsAreThoseOfMatchAndMask
  intro rows
  have hrow : ∀ row ∈ rows, row = (row.1, row.1.matchWord, row.1.mask) := by decide
  constructor
  · intro row hmem w
    rw [hrow row hmem]
    exact decodes_to_opcode_iff w row.1
  · intro row hmem row' hmem' w h h'
    rw [hrow row hmem] at h ⊢
    rw [hrow row' hmem'] at h' ⊢
    rw [opcode_unique_of_matches h h']

/-! ### Encoding -/

/-- The encoded word of every command matches the command's own row (R82). -/
theorem encode_matches : ∀ i : Instr, EncodesOwnRow.Statement i
  | .nop => EncodesOwnRow.nop
  | .rxByte b => EncodesOwnRow.rxByte b
  | .rxStep => EncodesOwnRow.rxStep
  | .rxError => EncodesOwnRow.rxError
  | .txSend len data => EncodesOwnRow.txSend len data
  | .idDecode id => EncodesOwnRow.idDecode id
  | .fxLoad data => EncodesOwnRow.fxLoad data
  | .fxTake len => EncodesOwnRow.fxTake len
  | .tmrConfig slot node fidx tmo => EncodesOwnRow.tmrConfig slot node fidx tmo
  | .tmrKick node fidx => EncodesOwnRow.tmrKick node fidx
  | .tmrTick => EncodesOwnRow.tmrTick

/-- The operands read back from an encoded word are the command's own (R83). -/
theorem operands_encode (i : Instr) : i.opcode.operands (encode i) = i := by
  cases i with
  | nop | rxStep | rxError | tmrTick => rfl
  | rxByte | fxTake | txSend | fxLoad => simp [Instr.opcode, Opcode.operands, encode]
  | idDecode | tmrConfig | tmrKick =>
    simp [Instr.opcode, Opcode.operands, encode, cmdD32_packCmd, cmdNode_packCmd, cmdFidx_packCmd]

/-- Decoding the word of a command gives the command back (R80 to R83). -/
theorem decode_encode (i : Instr) : decode (encode i) = .ok i := by
  obtain ⟨_, hmatch⟩ := encode_matches i
  exact decode_eq_ok_iff.mpr ⟨hmatch, operands_encode i⟩

/-- Settles O5: the eight words are evaluated, and decoding follows by `decode_encode`. -/
theorem wordsOfR89EncodeAndDecode : Obligations.WordsOfR89EncodeAndDecode := by
  intro x hmem
  have hencode : encode x.1 = x.2 := by
    revert x
    decide
  exact ⟨hencode, hencode ▸ decode_encode x.1⟩

end Sys2Proof.Machine
end

section
/-! PROOFS. The bounds of the word sum, the two carry folds as a residue modulo 0xFFFF, and the
checksum as the complement of the folded sum (R100 to R102). -/

namespace Sys2Proof.Machine

/-! ### The folds -/

/-- A fold keeps the residue modulo 0xFFFF, because 2^16 is congruent to 1 (R102). -/
theorem foldCarry_mod (n : Nat) : foldCarry n % 0xFFFF = n % 0xFFFF := by
  rw [foldCarry_eq]
  omega

/-- A fold is 0 only for 0 (R102). -/
theorem foldCarry_eq_zero_iff {n : Nat} : foldCarry n = 0 ↔ n = 0 := by
  rw [foldCarry_eq]
  omega

/-- The first fold of a 32-bit sum adds two 16-bit values (R102). -/
theorem foldCarry_le_of_lt_two_pow {n : Nat} (h : n < 2 ^ 32) : foldCarry n ≤ 0x1FFFE := by
  rw [foldCarry_eq]
  omega

/-- The second fold leaves 16 bits: a carry out of at most 0x1FFFE leaves at most 0xFFFE behind
(R102). -/
theorem foldCarry_le_of_le {n : Nat} (h : n ≤ 0x1FFFE) : foldCarry n ≤ 0xFFFF := by
  rw [foldCarry_eq]
  omega

/-- Both folds of a 32-bit sum leave a 16-bit value (R102). -/
theorem foldCarry_foldCarry_le {n : Nat} (h : n < 2 ^ 32) : foldCarry (foldCarry n) ≤ 0xFFFF :=
  foldCarry_le_of_le (foldCarry_le_of_lt_two_pow h)

/-- Both folds keep the residue modulo 0xFFFF (R102). -/
theorem foldCarry_foldCarry_mod (n : Nat) : foldCarry (foldCarry n) % 0xFFFF = n % 0xFFFF :=
  (foldCarry_mod _).trans (foldCarry_mod n)

/-- Both folds give 0 only for 0 (R102). -/
theorem foldCarry_foldCarry_eq_zero_iff {n : Nat} : foldCarry (foldCarry n) = 0 ↔ n = 0 :=
  foldCarry_eq_zero_iff.trans foldCarry_eq_zero_iff

/-! ### The sum and its complement -/

/-- Each word, the odd trailing one included, adds at most 0xFFFF (R101, R102). -/
theorem wordSum_le (p : List Byte) : wordSum p ≤ 0xFFFF * ((p.length + 1) / 2) := by
  induction p using wordSum.induct with
  | case1 => exact Nat.zero_le _
  | case2 lo =>
    rw [wordSum_singleton, List.length_singleton]
    omega
  | case3 lo hi rest ih =>
    rw [wordSum_cons_cons, List.length_cons, List.length_cons]
    omega

/-- A 32-bit accumulator holds the sum of up to 131070 bytes (R102). -/
theorem wordSum_lt_two_pow {p : List Byte} (h : p.length ≤ 131070) : wordSum p < 2 ^ 32 := by
  have hbound := wordSum_le p
  omega

/-- The largest sum of a payload of this block, six words of 0xFFFF (R102). -/
theorem wordSum_le_of_length_le_twelve {p : List Byte} (h : p.length ≤ 12) :
    wordSum p ≤ 0x5FFFA := by
  have hbound := wordSum_le p
  omega

/-- The checksum as a number: the one's complement of the folded sum in 16 bits (R100). -/
theorem inetCksum_toNat {p : List Byte} (h : p.length ≤ 131070) :
    (inetCksum p).toNat = 0xFFFF - foldCarry (foldCarry (wordSum p)) := by
  have hfolded := foldCarry_foldCarry_le (wordSum_lt_two_pow h)
  rw [inetCksum, BitVec.toNat_setWidth, BitVec.toNat_not, BitVec.toNat_ofNat]
  omega

/-- Settles O21: the folds keep residue and zero one fold at a time, and the sum grows by at most
0xFFFF per word. -/
theorem checksumFoldsAreExact : Obligations.ChecksumFoldsAreExact := by
  constructor
  case left =>
    intro n hn
    exact ⟨foldCarry_le_of_lt_two_pow hn, foldCarry_foldCarry_le hn, foldCarry_foldCarry_mod n,
      foldCarry_foldCarry_eq_zero_iff⟩
  case right =>
    intro p hp
    exact ⟨wordSum_lt_two_pow hp, wordSum_le_of_length_le_twelve, inetCksum_toNat hp⟩

end Sys2Proof.Machine
end

section
/-! PROOFS. One `RX_STEP` on the unconsumed bytes: what it answers behind bytes without a SOF, the views
of a candidate frame, and how far a mismatch consumes (R113 to R119). -/

namespace Sys2Proof.Machine

/-! ### Drops and events -/

/-- An event leaves the unconsumed bytes as they are. -/
@[simp] theorem State.unconsumed_emit (s : State) (body : EventBody) :
    (s.emit body).unconsumed = s.unconsumed :=
  State.unconsumed_congr rfl rfl rfl

/-- Dropping and reporting do not depend on their order. -/
theorem State.emit_ringDrop (s : State) (n : Nat) (body : EventBody) :
    (s.ringDrop n).emit body = (s.emit body).ringDrop n :=
  rfl

/-- Two drops are one drop of the sum (R11). -/
theorem State.ringDrop_ringDrop (s : State) (m n : Nat) :
    (s.ringDrop m).ringDrop n = s.ringDrop (m + n) := by
  simp only [State.ringDrop, BitVec.ofNat_add, BitVec.add_assoc, sub_sub]

/-- `rx_count` is the number of unconsumed bytes (R23). -/
theorem State.rxCount_of_unconsumed {s : State} {bs : List Byte} (hs : s.unconsumed = bs) :
    s.rxCount.toNat = bs.length := by
  rw [← s.unconsumed_length, hs]

/-- Dropping the oldest unconsumed bytes keeps the rest (R11). -/
theorem State.unconsumed_ringDrop_append {s : State} {x y : List Byte} {n : Nat}
    (hs : s.unconsumed = x ++ y) (hn : n = x.length) : (s.ringDrop n).unconsumed = y := by
  have hcount := State.rxCount_of_unconsumed hs
  rw [List.length_append] at hcount
  rw [s.unconsumed_ringDrop (by omega), hs, hn, List.drop_left]

/-- The bytes at the head of the ring are the oldest unconsumed ones (R11). -/
theorem State.ringBytes_of_unconsumed {s : State} {f y : List Byte} (hs : s.unconsumed = f ++ y) :
    s.ringBytes f.length = f := by
  have hcount := State.rxCount_of_unconsumed hs
  rw [List.length_append] at hcount
  rw [s.ringBytes_eq_take (by omega), hs, List.take_left]

/-! ### The branches of `RX_STEP` -/

/-- Without a SOF, `RX_STEP` discards all bytes or waits, by their number (R114). -/
theorem execRxStep_of_no_sof {s : State} (hs : 0xFF#8 ∉ s.unconsumed) :
    execRxStep s = if 128 < s.rxCount.toNat then .next (s.ringDrop s.rxCount.toNat) else .next s := by
  have hnone := firstSof_eq_none.2 hs
  obtain ⟨_, hc, he⟩ | ⟨_, hc, he⟩ | ⟨k, hk, _⟩ | ⟨k, hk, _⟩ := execRxStep_cases s
  · rw [he, if_pos hc]
  · rw [he, if_neg (Nat.not_lt.2 hc)]
  all_goals simp [hnone] at hk

/-- At the first SOF, `RX_STEP` aligns the head, then waits or judges the candidate, by the number of
bytes behind the SOF (R115). -/
theorem execRxStep_of_sof {s : State} {x y : List Byte} (hs : s.unconsumed = x ++ 0xFF#8 :: y)
    (hx : 0xFF#8 ∉ x) :
    execRxStep s = if y.length < 14 then .next (s.ringDrop x.length)
      else .next (s.ringDrop x.length).judgeCandidate := by
  have hfirst : firstSof s.unconsumed = some x.length := hs ▸ firstSof_append hx
  have hcount : (s.ringDrop x.length).rxCount.toNat = y.length + 1 :=
    State.rxCount_of_unconsumed (State.unconsumed_ringDrop_append hs rfl)
  have hlen : Config.rxFrameLen = 15 := rfl
  obtain ⟨hk, _⟩ | ⟨hk, _⟩ | ⟨k, hk, hc, he⟩ | ⟨k, hk, hc, he⟩ := execRxStep_cases s <;>
    rw [hfirst] at hk
  · cases hk
  · cases hk
  · cases hk
    rw [he, if_pos (by omega)]
  · cases hk
    rw [he, if_neg (by omega)]

/-- A whole candidate behind bytes without a SOF: `RX_STEP` reports it, and consumes it or
resynchronizes, by its checksum (R116, R117). -/
theorem execRxStep_of_candidate {s : State} {x w y : List Byte}
    (hs : s.unconsumed = x ++ 0xFF#8 :: (w ++ y)) (hx : 0xFF#8 ∉ x) (hw : w.length = 14) :
    execRxStep s =
      if frameValid (0xFF#8 :: w) then
        .next ((s.emit (frameOkEvent (0xFF#8 :: w))).ringDrop (x.length + 15))
      else .next ((s.emit (frameBadEvent (0xFF#8 :: w))).ringDrop
        (x.length + resyncLength (0xFF#8 :: w))) := by
  have hbehind : ¬(w ++ y).length < 14 := by
    rw [List.length_append]
    omega
  have hlen : Config.rxFrameLen = (0xFF#8 :: w).length := by
    rw [List.length_cons, hw]
  have hcand : (s.ringDrop x.length).ringBytes Config.rxFrameLen = 0xFF#8 :: w := by
    rw [hlen]
    exact State.ringBytes_of_unconsumed (State.unconsumed_ringDrop_append hs rfl)
  rw [execRxStep_of_sof hs hx, if_neg hbehind]
  obtain ⟨hv, hj⟩ | ⟨hv, hj⟩ := (s.ringDrop x.length).judgeCandidate_cases <;>
    rw [hj, hcand, State.emit_ringDrop, State.ringDrop_ringDrop] <;> rw [hcand] at hv
  · rw [if_pos hv]
  · rw [if_neg (Bool.eq_false_iff.1 hv)]

/-! ### The views of a candidate frame (R71, R118) -/

/-- The checksum field of a frame (R71). -/
theorem frameRxck_cons (b c0 c1 : Byte) (p : List Byte) :
    frameRxck (b :: c0 :: c1 :: p) = le16 c0 c1 :=
  rfl

section
variable {p : List Byte} (hp : p.length = 12) (b c0 c1 : Byte)
include hp

/-- The payload of a 15-byte frame (R71). -/
theorem framePayload_cons : framePayload (b :: c0 :: c1 :: p) = p :=
  List.take_of_length_le hp.le

/-- A frame validates exactly when its two checksum bytes are the checksum of its payload, low byte
first (R103). -/
theorem frameValid_cons_iff :
    frameValid (b :: c0 :: c1 :: p) = true ↔
      (inetCksum p).toNat = c0.toNat + 256 * c1.toNat := by
  rw [frameValid_iff, frameRxck_cons, framePayload_cons hp, ← BitVec.toNat_inj, le16_toNat]
  exact eq_comm

/-- The event of a valid frame in terms of its payload (R118). -/
theorem frameOkEvent_cons :
    frameOkEvent (b :: c0 :: c1 :: p) =
      .frameOk p (payloadId32 p) (payloadData64 p) (idFields (payloadId32 p)) := by
  rw [frameOkEvent, framePayload_cons hp]

/-- The event of a mismatch in terms of the checksum bytes and the payload (R118). -/
theorem frameBadEvent_cons :
    frameBadEvent (b :: c0 :: c1 :: p) =
      .frameBad p (le16 c0 c1) (inetCksum p) (payloadId32 p) (payloadData64 p)
        (idFields (payloadId32 p)) := by
  rw [frameBadEvent, framePayload_cons hp, frameRxck_cons]

end

/-! ### How far a mismatch consumes (R117) -/

/-- A mismatch consumes the SOF and the bytes of the window before its first `0xFF`, all of them when
it has none (R117). -/
theorem resyncLength_cons (b : Byte) {w : List Byte} (hw : w.length = 14) :
    resyncLength (b :: w) = (w.takeWhile (fun c => c != 0xFF#8)).length + 1 := by
  have hpass {u : List Byte} (hu : 0xFF#8 ∉ u) : ∀ c ∈ u, (c != 0xFF#8) = true :=
    fun c hc => bne_iff_ne.2 fun he => hu (he ▸ hc)
  rw [resyncLength, List.drop_one, List.tail_cons]
  cases hfirst : firstSof w with
  | none => rw [List.takeWhile_eq_self_iff.2 (hpass (firstSof_eq_none.1 hfirst)), hw]
  | some m =>
    obtain ⟨u, v, rfl, hu, rfl⟩ := firstSof_eq_some hfirst
    rw [List.takeWhile_append_of_pos (hpass hu), List.takeWhile_cons_of_neg (by decide),
      List.append_nil]

/-! ### The obligations -/

/-- Settles O17: the word of `RX_ERROR` is its opcode, and its meaning is one `emit`. -/
theorem rxErrorReportsAndKeepsTheRing : Obligations.RxErrorReportsAndKeepsTheRing := by
  constructor
  case left => decide
  case right => exact fun _ => rfl

/-- Settles O27: the branch of `RX_STEP` without a SOF, on both sides of 128 bytes. -/
theorem rxStepDiscardsStaleNoise : Obligations.RxStepDiscardsStaleNoise := by
  intro s hs
  have hstep : exec .rxStep s = _ := execRxStep_of_no_sof hs
  constructor
  case left =>
    intro hc
    rw [hstep, if_neg (Nat.not_lt.2 hc)]
  case right =>
    intro hc
    rw [if_pos hc] at hstep
    have hempty : (s.ringDrop s.rxCount.toNat).unconsumed = [] :=
      State.unconsumed_ringDrop_append (List.append_nil _).symm s.unconsumed_length.symm
    have hzero : (s.ringDrop s.rxCount.toNat).rxCount = 0#9 :=
      BitVec.eq_of_toNat_eq (State.rxCount_of_unconsumed hempty)
    exact ⟨_, hstep, hempty, hzero, s.ringDrop_head _, State.rxbRead_congr rfl, rfl⟩

/-- Settles O28: the branch of `RX_STEP` that aligns on the SOF and finds fewer than 15 bytes. -/
theorem rxStepAlignsAndWaits : Obligations.RxStepAlignsAndWaits := by
  intro s x y hs hx hy
  have hstep : exec .rxStep s = _ := execRxStep_of_sof hs hx
  rw [if_pos hy] at hstep
  exact ⟨_, hstep, State.unconsumed_ringDrop_append hs rfl, s.ringDrop_head _,
    State.rxbRead_congr rfl, rfl⟩

/-- Settles O29: the candidate validates, so `RX_STEP` drops the bytes before it and its own 15. -/
theorem rxStepDeliversAValidFrame : Obligations.RxStepDeliversAValidFrame := by
  intro s x p y c0 c1 hs hx hp hck
  have hstep : exec .rxStep s = _ :=
    execRxStep_of_candidate (w := c0 :: c1 :: p) hs hx (congrArg (· + 2) hp)
  rw [if_pos ((frameValid_cons_iff hp _ c0 c1).2 hck), frameOkEvent_cons hp] at hstep
  refine ⟨_, hstep, ?rest, State.ringDrop_head _ _, rfl, State.rxbRead_congr rfl, rfl⟩
  case rest =>
    have hsplit : s.unconsumed = (x ++ 0xFF#8 :: c0 :: c1 :: p) ++ y := by
      simp [hs]
    refine State.unconsumed_ringDrop_append ((s.unconsumed_emit _).trans hsplit) ?_
    simp [hp]

/-- Settles O30: the candidate does not validate, and `RX_STEP` drops the bytes before it, its SOF and
the window's bytes before the first `0xFF`, so that `dropWhile` is what the window keeps. -/
theorem rxStepResynchronizesOnMismatch : Obligations.RxStepResynchronizesOnMismatch := by
  intro s x p y c0 c1 hs hx hp hck kept
  have hw : (c0 :: c1 :: p).length = 14 := congrArg (· + 2) hp
  have hstep : exec .rxStep s = _ := execRxStep_of_candidate (w := c0 :: c1 :: p) hs hx hw
  rw [if_neg (mt (frameValid_cons_iff hp _ c0 c1).1 hck), frameBadEvent_cons hp,
    resyncLength_cons _ hw] at hstep
  generalize hgone : (c0 :: c1 :: p).takeWhile (fun c => c != 0xFF#8) = gone at hstep
  have hwindow : c0 :: c1 :: p = gone ++ kept := by
    rw [← hgone, List.takeWhile_append_dropWhile]
  have hlen : gone.length + kept.length = 14 := by
    rw [← List.length_append, ← hwindow, hw]
  refine ⟨_, le16 c0 c1, hstep, le16_toNat c0 c1, ?rest, ?head, rfl, State.rxbRead_congr rfl, rfl⟩
  case rest =>
    have hsplit : s.unconsumed = (x ++ 0xFF#8 :: gone) ++ (kept ++ y) := by
      rw [hs, ← List.cons_append, ← List.cons_append, hwindow]
      simp
    refine State.unconsumed_ringDrop_append ((s.unconsumed_emit _).trans hsplit) ?_
    simp
  case head =>
    have hdropped : x.length + 15 - kept.length = x.length + (gone.length + 1) := by
      omega
    rw [hdropped]
    exact State.ringDrop_head _ _

end Sys2Proof.Machine
end

section
/-! PROOFS. The send framer: the payload `TX_SEND` sends byte by byte, the frame around it, and the
bytes SEND hands over (R88, R140 to R142). -/

namespace Sys2Proof.Machine

/-! ### Bytes of values -/

/-- The two bytes of a 16-bit value, the low one first, put the value back together (R10). -/
theorem byteOf_zero_add_byteOf_one (v : BitVec 16) :
    (byteOf v 0).toNat + 256 * (byteOf v 1).toNat = v.toNat := by
  have hlt := v.isLt
  rw [byteOf_toNat, byteOf_toNat]
  omega

/-- Byte `k` of a value as a digit in base 256 (R8). -/
theorem byteOf_eq_ofNat {n : Nat} (v : BitVec n) (k : Nat) :
    byteOf v k = BitVec.ofNat 8 (v.toNat / 256 ^ k % 256) := by
  have hpow : (2 : Nat) ^ (8 * k) = 256 ^ k := pow_mul 2 8 k
  refine BitVec.eq_of_toNat_eq ?_
  rw [byteOf_toNat, hpow, BitVec.toNat_ofNat]
  exact (Nat.mod_mod _ 256).symm

/-- `le64` puts byte `k` at place `k` (R10). -/
theorem byteOf_le64 (b : Nat → Byte) {k : Nat} (hk : k < 8) :
    byteOf (le64 (b 0) (b 1) (b 2) (b 3) (b 4) (b 5) (b 6) (b 7)) k = b k := by
  refine BitVec.eq_of_toNat_eq ?_
  rw [byteOf_toNat, le64_toNat]
  interval_cases k <;> omega

/-! ### The payload (R140, R141) -/

/-- Byte `k` of the payload: the data's byte below `len`, zero from there on (R140). -/
theorem txPayload_getElem? (len : BitVec 8) (data : BitVec 64) {k : Nat} (hk : k < 8) :
    (txPayload len data)[k]? = some (if k < len.toNat then byteOf data k else 0#8) := by
  have hmin : k < min len.toNat Config.txPayloadLen ↔ k < len.toNat :=
    lt_min_iff.trans (and_iff_left hk)
  simp only [txPayload, List.getElem?_map, List.getElem?_range hk, Option.map_some, hmin]

/-- Byte `k` of a byte vector padded with zeros, or truncated, to 8 bytes (R141). -/
theorem padded_getElem? (v : List Byte) {k : Nat} (hk : k < 8) :
    ((v ++ List.replicate 8 0#8).take 8)[k]? = some (byteAt v k) := by
  rw [List.getElem?_take_of_lt hk, byteAt, List.getD_eq_getElem?_getD]
  obtain hin | hout := lt_or_ge k v.length
  · rw [List.getElem?_append_left hin, List.getElem?_eq_getElem hin, Option.getD_some]
  · rw [List.getElem?_append_right hout, List.getElem?_eq_none hout,
      List.getElem?_replicate_of_lt (by omega), Option.getD_none]

/-- The operands of SEND make the payload that is the byte vector, padded or truncated (R141). -/
theorem txPayload_send (v : List Byte) :
    txPayload (BitVec.ofNat 8 (min v.length Config.txPayloadLen))
        (le64 (byteAt v 0) (byteAt v 1) (byteAt v 2) (byteAt v 3)
          (byteAt v 4) (byteAt v 5) (byteAt v 6) (byteAt v 7)) =
      (v ++ List.replicate 8 0#8).take 8 := by
  refine List.ext_getElem? fun k => ?_
  obtain hk | hk := lt_or_ge k 8
  case inl =>
    have hsmall : min v.length 8 < 2 ^ 8 := by omega
    have hlen : (BitVec.ofNat 8 (min v.length Config.txPayloadLen)).toNat = min v.length 8 :=
      Nat.mod_eq_of_lt hsmall
    rw [txPayload_getElem? _ _ hk, padded_getElem? v hk, byteOf_le64 (byteAt v) hk, hlen]
    obtain hin | hout := lt_or_ge k v.length
    · rw [if_pos (lt_min hin hk)]
    · have hzero : byteAt v k = 0#8 := List.getD_eq_default _ _ hout
      rw [hzero, ite_self]
  case inr =>
    rw [List.getElem?_eq_none (by simpa using hk), List.getElem?_eq_none (by simp [hk])]

/-! ### The commands -/

/-- `TX_SEND` reports one frame around its payload and changes nothing else (R142). -/
theorem exec_txSend (len : BitVec 8) (data : BitVec 64) (s : State) :
    exec (.txSend len data) s =
      .next { s with
        events := s.events ++ [⟨s.cmdPort, .txFrame
          (0xFF#8 :: byteOf (inetCksum (txPayload len data)) 0 ::
            byteOf (inetCksum (txPayload len data)) 1 :: txPayload len data)⟩] } :=
  rfl

/-- A run of one command is that command (R60). -/
@[simp] theorem execAll_singleton (i : Instr) (s : State) : execAll [i] s = exec i s := by
  rw [execAll]
  cases exec i s <;> rfl

/-! ### The obligations -/

/-- Settles O36: the payload byte by byte, its checksum split into two bytes, the fields of the
command word, and the frame `TX_SEND` reports. -/
theorem txSendEmitsTheChecksummedFrame : Obligations.TxSendEmitsTheChecksummedFrame := by
  intro s len data
  refine ⟨txPayload len data, _, _, txPayload_length len data, ?payload,
    byteOf_zero_add_byteOf_one _, ?word, exec_txSend len data s⟩
  case payload =>
    intro k hk
    rw [txPayload_getElem? len data hk, byteOf_eq_ofNat]
  case word =>
    rw [encode, packCmd_toNat]
    simp

/-- Settles O37: SEND expands to one `TX_SEND`, whose payload is the padded or truncated vector by
`txPayload_send`. -/
theorem sendPadsOrTruncatesToEightBytes : Obligations.SendPadsOrTruncatesToEightBytes := by
  intro s v
  refine ⟨_, _, _, rfl, byteOf_zero_add_byteOf_one _, ?frame⟩
  case frame => rw [execAll_singleton, exec_txSend, txPayload_send]

end Sys2Proof.Machine
end

section
/-! PROOFS. The bit-field extractor: the identifier's fields, one `FX_TAKE`, and a walk whose fields
all fit into the word (R150 to R158). -/

namespace Sys2Proof.Machine

/-! ### Fields as numbers -/

/-- A field of an identifier is the cursor field at its place of the extended word (R152). -/
theorem extractLsb'_toNat_eq_fxField (id : BitVec 32) (c : Nat) {len : Nat} (hlen : len ≤ 32) :
    (id.extractLsb' c len).toNat = (fxField (id.setWidth 64) c len).toNat := by
  have hword : (id.setWidth 64).toNat = id.toNat := BitVec.toNat_setWidth_of_le (by decide)
  rw [fxField_toNat _ hlen, hword, BitVec.extractLsb'_toNat, Nat.shiftRight_eq_div_pow]

/-- `id[6:0]` as a number (R150). -/
theorem idFields_nodeId_toNat (id : BitVec 32) : (idFields id).nodeId.toNat = id.toNat % 2 ^ 7 :=
  BitVec.extractLsb'_toNat ..

/-- `id[10:7]` as a number (R150). -/
theorem idFields_functionCode_toNat (id : BitVec 32) :
    (idFields id).functionCode.toNat = id.toNat / 2 ^ 7 % 2 ^ 4 := by
  rw [idFields, BitVec.extractLsb'_toNat, Nat.shiftRight_eq_div_pow]

/-- `id[28:11]` as a number (R150). -/
theorem idFields_extendedId_toNat (id : BitVec 32) :
    (idFields id).extendedId.toNat = id.toNat / 2 ^ 11 % 2 ^ 18 := by
  rw [idFields, BitVec.extractLsb'_toNat, Nat.shiftRight_eq_div_pow]

/-! ### The commands -/

/-- `ID_DECODE` reports the identifier and its fields and changes nothing else (R151). -/
theorem exec_idDecode (id : BitVec 32) (s : State) :
    exec (.idDecode id) s =
      .next { s with events := s.events ++ [⟨s.cmdPort, .idFields id (idFields id)⟩] } :=
  rfl

/-- `FX_LOAD` starts a walk of a new word (R155). -/
theorem exec_fxLoad (data : BitVec 64) (s : State) :
    exec (.fxLoad data) s = .next { s with fxData := data, fxCur := 0#7, fxAbort := false } :=
  rfl

/-- `FX_TAKE` with its checks as conditions on numbers (R154, R156, R157). -/
theorem exec_fxTake (len : BitVec 8) (s : State) :
    exec (.fxTake len) s =
      if s.fxAbort = true then .next (s.emit (.fxError .aborted len s.fxCur))
      else if 32 < len.toNat then .next (s.setFxAbort.emit (.fxError .invalidLen len s.fxCur))
      else if 64 < s.fxCur.toNat + len.toNat then
        .next (s.setFxAbort.emit (.fxError .overflow len s.fxCur))
      else
        .next ((s.emit (.fxValue (fxField s.fxData s.fxCur.toNat len.toNat) len s.fxCur)).setFxCur
          (BitVec.ofNat 7 (s.fxCur.toNat + len.toNat))) := by
  simp only [← fxInvalidLen_iff, ← fxOverflows_iff]
  rfl

/-- A cursor up to the end of the word is stored without loss (R36). -/
theorem cursor_toNat {n : Nat} (h : n ≤ 64) : (BitVec.ofNat 7 n).toNat = n :=
  Nat.mod_eq_of_lt (by omega)

/-- `FX_TAKE` of a valid length that fits, in a walk not aborted (R156). -/
theorem exec_fxTake_of_fits {len : BitVec 8} {s : State} (habort : s.fxAbort = false)
    (hlen : len.toNat ≤ 32) (hfits : s.fxCur.toNat + len.toNat ≤ 64) :
    exec (.fxTake len) s =
      .next ((s.emit (.fxValue (fxField s.fxData s.fxCur.toNat len.toNat) len s.fxCur)).setFxCur
        (BitVec.ofNat 7 (s.fxCur.toNat + len.toNat))) := by
  rw [exec_fxTake, if_neg (ne_true_of_eq_false habort), if_neg (Nat.not_lt.2 hlen),
    if_neg (Nat.not_lt.2 hfits)]

/-! ### A walk whose fields fit -/

/-- A run whose first command completes goes on from there (R60). -/
theorem execAll_cons_of_next {i : Instr} {s t : State} (h : exec i s = .next t)
    (rest : List Instr) : execAll (i :: rest) s = execAll rest t := by
  rw [execAll, h]

/-- The reports of consecutive fields of a word, from a cursor on (R153, R156). -/
def fieldReports (w : BitVec 64) : BitVec 7 → List (BitVec 8) → List EventBody
  | _, [] => []
  | c, len :: rest =>
    .fxValue (fxField w c.toNat len.toNat) len c ::
      fieldReports w (BitVec.ofNat 7 (c.toNat + len.toNat)) rest

/-- Fields of valid lengths that fit into the rest of the word are reported one by one, and the
cursor moves past them all (R156, R158(a)). -/
theorem execAll_fxTake_of_fits {lens : List (BitVec 8)} {s : State} (habort : s.fxAbort = false)
    (hlens : ∀ len ∈ lens, len.toNat ≤ 32)
    (hfits : s.fxCur.toNat + (lens.map BitVec.toNat).sum ≤ 64) :
    execAll (lens.map .fxTake) s =
      .next { s with
        fxCur := BitVec.ofNat 7 (s.fxCur.toNat + (lens.map BitVec.toNat).sum)
        events := s.events ++ tagged s.cmdPort (fieldReports s.fxData s.fxCur lens) } := by
  induction lens generalizing s with
  | nil => simp [execAll, tagged, fieldReports]
  | cons len rest ih =>
    obtain ⟨hlen, hrest⟩ := List.forall_mem_cons.1 hlens
    rw [List.map_cons, List.sum_cons] at hfits
    have htake := exec_fxTake_of_fits habort hlen (by omega)
    have hcur := cursor_toNat (n := s.fxCur.toNat + len.toNat) (by omega)
    rw [List.map_cons, execAll_cons_of_next htake, ih ?abort hrest ?fits]
    case abort => exact habort
    case fits =>
      rw [State.setFxCur_fxCur, hcur, Nat.add_assoc]
      exact hfits
    simp [State.setFxCur, State.emit, tagged, fieldReports, hcur, Nat.add_assoc]

/-- A walk of valid lengths that sum to at most 64 reports each field from bit 0 on (R155, R156). -/
theorem execAll_walk_of_fits (s : State) (data : BitVec 64) {lens : List (BitVec 8)}
    (hlens : ∀ len ∈ lens, len.toNat ≤ 32) (hfits : (lens.map BitVec.toNat).sum ≤ 64) :
    execAll (.fxLoad data :: lens.map .fxTake) s =
      .next { s with
        fxData := data
        fxCur := BitVec.ofNat 7 (lens.map BitVec.toNat).sum
        fxAbort := false
        events := s.events ++ tagged s.cmdPort (fieldReports data 0#7 lens) } := by
  have hfrom : (0#7).toNat + (lens.map BitVec.toNat).sum = (lens.map BitVec.toNat).sum :=
    Nat.zero_add _
  rw [execAll_cons_of_next (exec_fxLoad data s),
    execAll_fxTake_of_fits rfl hlens (hfrom.trans_le hfits), hfrom]

/-! ### The obligations -/

/-- Settles O40: the fields of the command word, and the meaning of `FX_LOAD`. -/
theorem fxLoadStartsAWalk : Obligations.FxLoadStartsAWalk := by
  intro s data
  refine ⟨?word, exec_fxLoad data s⟩
  case word =>
    rw [encode, packCmd_toNat]
    simp

/-- Settles O18: each field as a number, the fields of the command word, and the one report. -/
theorem idDecodeReportsTheThreeFields : Obligations.IdDecodeReportsTheThreeFields := by
  intro s id
  refine ⟨idFields id, idFields_nodeId_toNat id, idFields_functionCode_toNat id,
    idFields_extendedId_toNat id, ?word, exec_idDecode id s⟩
  case word =>
    rw [encode, packCmd_toNat, BitVec.toNat_setWidth_of_le (by decide)]
    simp

/-- Settles O41: the four branches of `FX_TAKE` in the order of its checks; in the last one the
field is at most 32 bits wide and the new cursor at most 64, so neither is cut off. -/
theorem fxTakeReportsAFieldOrTheFirstError : Obligations.FxTakeReportsAFieldOrTheFirstError := by
  intro s len
  refine ⟨?word, ?outcome⟩
  case word =>
    rw [encode, packCmd_toNat]
    simp
  case outcome =>
    rw [exec_fxTake]
    split_ifs with habort hlong hpast
    case pos => rfl
    case pos => rfl
    case pos => rfl
    case neg =>
      exact ⟨_, _, fxField_toNat _ (Nat.not_lt.1 hlong), cursor_toNat (Nat.not_lt.1 hpast), rfl⟩

/-- Settles O19: the fields agree place by place, and the walk's lengths are valid and sum to 29, so
each of its fields is reported. -/
theorem identifierFieldsAreCursorFields : Obligations.IdentifierFieldsAreCursorFields := by
  intro s id v0 v1 v2
  have hrun := execAll_walk_of_fits s (id.setWidth 64) (lens := [7#8, 4#8, 18#8])
    (by decide) (by decide)
  exact ⟨extractLsb'_toNat_eq_fxField id 0 (by decide),
    extractLsb'_toNat_eq_fxField id 7 (by decide),
    extractLsb'_toNat_eq_fxField id 11 (by decide), _, _, rfl, hrun, rfl⟩

end Sys2Proof.Machine
end

section
/-! PROOFS. The liveness timer: what each of its commands does to a slot, the exact 32-bit arithmetic of
a tick, and the alerts of a tick as a filter over the numbered slots (R172, R175, R178). -/

namespace Sys2Proof.Machine
open Sys2Proof.Laws

/-! ### Slots -/

/-- What a kick makes of a slot, with the match of R175 on the slot's fields. -/
theorem Slot.kick_eq_ite (node : BitVec 7) (fidx : BitVec 8) (sl : Slot) :
    sl.kick node fidx =
      if sl.valid = true ∧ 0 < sl.tmo.toInt ∧ sl.node = node ∧ sl.fidx = fidx
      then { sl with rem := sl.tmo } else sl := by
  have hmatch : (sl.active && sl.keyIs node fidx) = true ↔
      sl.valid = true ∧ 0 < sl.tmo.toInt ∧ sl.node = node ∧ sl.fidx = fidx := by
    rw [Bool.and_eq_true, Slot.active_iff, Slot.keyIs_iff, and_assoc]
  exact if_congr hmatch rfl rfl

/-- The backoff value is stored exactly, because R7 bounds `BACKOFF_MIN_MS` (R182). -/
theorem Slot.backoff_toInt {p : Params} (hp : p.valid = true) (sl : Slot) :
    (sl.backoff p).toInt = max sl.tmo.toInt (p.backoffMinMs : Int) := by
  obtain ⟨_, _, _, hbackoff, _⟩ := (Params.valid_iff p).1 hp
  have hlt := BitVec.toInt_lt (x := sl.tmo)
  exact BitVec.toInt_ofInt_eq_self (by decide) (by omega) (by omega)

/-- The remaining time after a tick is stored exactly unless it is overdue, because R7 bounds
`OVERDUE_MS` (R178). -/
theorem Slot.remAfterTick_toInt {p : Params} (hp : p.valid = true) {sl : Slot}
    (hdue : -(p.overdueMs : Int) ≤ sl.remAfterTick p) :
    (BitVec.ofInt 32 (sl.remAfterTick p)).toInt = sl.remAfterTick p := by
  obtain ⟨_, _, hoverdue, _⟩ := (Params.valid_iff p).1 hp
  have hlt := BitVec.toInt_lt (x := sl.rem)
  have hrem : sl.remAfterTick p = sl.rem.toInt - p.tickMs := rfl
  exact BitVec.toInt_ofInt_eq_self (by decide) (by omega) (by omega)

/-- A tick leaves an inactive slot as it is (R178). -/
theorem Slot.tick_of_inactive (p : Params) {sl : Slot} (h : sl.active = false) : sl.tick p = sl := by
  obtain ⟨_, htick⟩ | ⟨hactive, _⟩ | ⟨hactive, _⟩ := Slot.tick_cases p sl
  · exact htick
  all_goals simp [h] at hactive

/-- A tick writes only the remaining time of an active slot, by countdown or by backoff (R178). -/
theorem Slot.tick_of_active {p : Params} (hp : p.valid = true) {sl : Slot} (h : sl.active = true) :
    ∃ r : BitVec 32, sl.tick p = { sl with rem := r } ∧
      r.toInt =
        if sl.rem.toInt - p.tickMs < -(p.overdueMs : Int)
        then max sl.tmo.toInt (p.backoffMinMs : Int)
        else sl.rem.toInt - p.tickMs := by
  obtain ⟨hinactive, _⟩ | ⟨_, hoverdue, htick⟩ | ⟨_, hdue, htick⟩ := Slot.tick_cases p sl
  · simp [h] at hinactive
  · exact ⟨_, htick, (Slot.backoff_toInt hp sl).trans (if_pos hoverdue).symm⟩
  · exact ⟨_, htick, (Slot.remAfterTick_toInt hp hdue).trans (if_neg (Int.not_lt.2 hdue)).symm⟩

/-- The alerts of a tick are those of the numbered slots that the tick finds overdue, in slot order
(R178). -/
theorem tickAlerts_eq_filterMap (p : Params) (i : Nat) (slots : List Slot) :
    tickAlerts p i slots =
      (slots.zipIdx i).filterMap fun x =>
        if x.1.valid = true ∧ 0 < x.1.tmo.toInt ∧
            x.1.rem.toInt - p.tickMs < -(p.overdueMs : Int)
        then some (.tmrAlert (BitVec.ofNat 8 x.2) x.1.node x.1.fidx) else none := by
  induction slots generalizing i with
  | nil => rfl
  | cons sl rest ih =>
    have halerts := Slot.alerts_iff p sl
    rw [Slot.active_iff, and_assoc] at halerts
    rw [tickAlerts, List.zipIdx_cons, List.filterMap_cons, ih]
    by_cases h : sl.alerts p = true
    · rw [if_pos h, if_pos (halerts.1 h)]
    · rw [if_neg h, if_neg (mt halerts.2 h)]

/-! ### The commands -/

/-- The word of `TMR_CONFIG` as a number (R80). -/
theorem encode_tmrConfig_toNat (slot : BitVec 8) (node : BitVec 7) (fidx : BitVec 8)
    (tmo : BitVec 32) :
    (encode (.tmrConfig slot node fidx tmo)).toNat =
      0x30 + 2 ^ 8 * slot.toNat + 2 ^ 16 * node.toNat + 2 ^ 24 * fidx.toNat + 2 ^ 32 * tmo.toNat := by
  have htmo : (tmo.setWidth 64).toNat = tmo.toNat := BitVec.toNat_setWidth_of_le (by decide)
  rw [encode, packCmd_toNat, packKey_toNat, htmo, BitVec.toNat_ofNat]
  omega

/-- The word of `TMR_KICK` as a number (R80). -/
theorem encode_tmrKick_toNat (node : BitVec 7) (fidx : BitVec 8) :
    (encode (.tmrKick node fidx)).toNat = 0x31 + 2 ^ 16 * node.toNat + 2 ^ 24 * fidx.toNat := by
  rw [encode, packCmd_toNat, packKey_toNat]
  simp only [BitVec.toNat_ofNat]
  omega

/-- `TMR_CONFIG` of a slot that exists (R172). -/
theorem exec_tmrConfig_of_lt {slot : BitVec 8} {s : State} (h : slot.toNat < s.params.nt)
    (node : BitVec 7) (fidx : BitVec 8) (tmo : BitVec 32) :
    exec (.tmrConfig slot node fidx tmo) s =
      .next (s.setSlots (s.slots.set slot.toNat ⟨true, node, fidx, tmo, tmo⟩)) := by
  obtain ⟨_, hexec⟩ | ⟨hge, _⟩ := execTmrConfig_cases slot node fidx tmo s
  · exact hexec
  · omega

/-- `TMR_CONFIG` of a slot that does not exist (R84, R192). -/
theorem exec_tmrConfig_of_ge {slot : BitVec 8} {s : State} (h : s.params.nt ≤ slot.toNat)
    (node : BitVec 7) (fidx : BitVec 8) (tmo : BitVec 32) :
    exec (.tmrConfig slot node fidx tmo) s =
      .next (s.raiseIllegal .slotRange (encode (.tmrConfig slot node fidx tmo))) := by
  obtain ⟨hlt, _⟩ | ⟨_, hexec⟩ := execTmrConfig_cases slot node fidx tmo s
  · omega
  · exact hexec

/-- `TMR_KICK` kicks every slot and changes nothing else (R175). -/
theorem exec_tmrKick (node : BitVec 7) (fidx : BitVec 8) (s : State) :
    exec (.tmrKick node fidx) s = .next { s with slots := s.slots.map (Slot.kick node fidx) } :=
  rfl

/-- `TMR_TICK` ticks every slot, reports the alerts and changes nothing else (R178). -/
theorem exec_tmrTick (s : State) :
    exec .tmrTick s =
      .next { s with
        slots := s.slots.map (Slot.tick s.params)
        events := s.events ++ tagged s.cmdPort (tickAlerts s.params 0 s.slots) } :=
  rfl

/-! ### The obligations -/

/-- Settles O44: the command word as a number, then the write of one list entry below `NT`
and the illegal command from `NT` on. -/
theorem tmrConfigWritesAndSeedsOneSlot : Obligations.TmrConfigWritesAndSeedsOneSlot := by
  intro s slot node fidx tmo hcount i
  refine ⟨encode_tmrConfig_toNat slot node fidx tmo, ?writes, ?illegal⟩
  case writes =>
    intro hslot
    have hin : slot.toNat < s.slots.length := hcount ▸ hslot
    exact ⟨_, exec_tmrConfig_of_lt hslot node fidx tmo, rfl, List.length_set,
      List.getElem?_set_self hin, fun j hj => List.getElem?_set_ne hj.symm⟩
  case illegal => exact fun hslot => exec_tmrConfig_of_ge hslot node fidx tmo

/-- Settles O46: the command word as a number, and the kick of each slot by `Slot.kick_eq_ite`. -/
theorem tmrKickReloadsEveryActiveMatch : Obligations.TmrKickReloadsEveryActiveMatch := by
  intro s node fidx
  refine ⟨encode_tmrKick_toNat node fidx, _, exec_tmrKick node fidx s, rfl, List.length_map _,
    ?slots⟩
  case slots =>
    intro j sl hsl
    rw [List.getElem?_map, hsl, Option.map_some, Slot.kick_eq_ite]

/-- Settles O47: each slot by its activity, and the alerts by `tickAlerts_eq_filterMap`. The bounds of
R7 alone keep the arithmetic exact; the range of R32 is not needed. -/
theorem tmrTickCountsDownAlertsAndBacksOff : Obligations.TmrTickCountsDownAlertsAndBacksOff := by
  intro s hvalid _
  refine ⟨by decide, _, exec_tmrTick s, rfl, List.length_map _, ?slots, ?alerts⟩
  case slots =>
    intro j sl hsl
    have htick : (s.slots.map (Slot.tick s.params))[j]? = some (sl.tick s.params) := by
      rw [List.getElem?_map, hsl, Option.map_some]
    by_cases hfields : sl.valid = true ∧ 0 < sl.tmo.toInt
    · rw [if_pos hfields]
      obtain ⟨r, heq, hr⟩ := Slot.tick_of_active hvalid (sl.active_iff.2 hfields)
      exact ⟨r, htick.trans (congrArg some heq), hr⟩
    · have hinactive : sl.active = false := Bool.eq_false_iff.2 (mt sl.active_iff.1 hfields)
      rw [if_neg hfields]
      exact htick.trans (congrArg some (Slot.tick_of_inactive s.params hinactive))
  case alerts => rw [tickAlerts_eq_filterMap]

end Sys2Proof.Machine
end

section
/-! PROOFS. No-operation: among the words with its opcode only the zero word passes the check of the
reserved bits (R190, R191). -/

namespace Sys2Proof.Machine

/-- `opc` as a number is the low byte of the command word (R80). -/
theorem cmdOpc_toNat (w : CmdWord) : (cmdOpc w).toNat = w.toNat % 256 :=
  BitVec.extractLsb'_toNat 0 8 w

/-- A word with a defined opcode fails at most the check of its reserved bits (R191). -/
theorem decode_of_cmdOpc {op : Opcode} {w : CmdWord} (h : cmdOpc w = op.toByte) :
    decode w =
      if w &&& op.mask = op.matchWord then .ok (op.operands w) else .error .reservedNonzero := by
  simp only [decode, h, opcodeOfByte_toByte]

/-- The row of `NOP` fixes every bit, so the zero word is its only word (R82). -/
theorem matches_nop_iff (w : CmdWord) :
    w &&& Opcode.nop.mask = Opcode.nop.matchWord ↔ w = 0#96 := by
  have hmask : Opcode.nop.mask = BitVec.allOnes 96 := by decide
  have hmatch : Opcode.nop.matchWord = 0#96 := by decide
  rw [hmask, hmatch, BitVec.and_allOnes]

/-- `NOP` completes in the state it was given (R190). -/
theorem exec_nop (s : State) : exec .nop s = .next s := rfl

/-- Settles O16: the words with opcode `0x00` are those whose `opc` is that of `NOP`, and the row of
`NOP` holds the zero word alone. -/
theorem nopChangesNothing : Obligations.NopChangesNothing := by
  constructor
  case left => exact exec_nop
  case right =>
    intro w hw
    have hopc : cmdOpc w = Opcode.nop.toByte :=
      BitVec.eq_of_toNat_eq ((cmdOpc_toNat w).trans hw)
    simp only [decode_of_cmdOpc hopc, matches_nop_iff, Opcode.operands]

end Sys2Proof.Machine
end

section
/-! PROOFS. Commands that find nothing to do: `RX_STEP` on an empty ring, the timer commands without an
active slot, `FX_TAKE` in an aborted walk. The state after reset is in each of these conditions (R233,
R44). -/

namespace Sys2Proof.Machine

/-! ### A table without an active slot -/

/-- A kick leaves an inactive slot as it is (R175). -/
theorem Slot.kick_of_inactive (node : BitVec 7) (fidx : BitVec 8) {sl : Slot}
    (h : sl.active = false) : sl.kick node fidx = sl := by
  simp [Slot.kick, h]

/-- Only active slots alert (R178). -/
theorem tickAlerts_of_inactive (p : Params) {slots : List Slot}
    (h : ∀ sl ∈ slots, sl.active = false) (i : Nat) : tickAlerts p i slots = [] := by
  induction slots generalizing i with
  | nil => rfl
  | cons sl rest ih =>
    obtain ⟨hsl, hrest⟩ := List.forall_mem_cons.1 h
    have hquiet : sl.alerts p = false := by simp [Slot.alerts, hsl]
    simp [tickAlerts, hquiet, ih hrest]

/-- `TMR_KICK` changes nothing when no slot is active (R175). -/
theorem exec_tmrKick_of_inactive (node : BitVec 7) (fidx : BitVec 8) {s : State}
    (h : ∀ sl ∈ s.slots, sl.active = false) : exec (.tmrKick node fidx) s = .next s := by
  have hslots : s.slots.map (Slot.kick node fidx) = s.slots :=
    (List.map_congr_left fun sl hsl => Slot.kick_of_inactive node fidx (h sl hsl)).trans
      (List.map_id' s.slots)
  rw [exec_tmrKick, hslots]

/-- `TMR_TICK` changes nothing and reports nothing when no slot is active (R178). -/
theorem exec_tmrTick_of_inactive {s : State} (h : ∀ sl ∈ s.slots, sl.active = false) :
    exec .tmrTick s = .next s := by
  have hslots : s.slots.map (Slot.tick s.params) = s.slots :=
    (List.map_congr_left fun sl hsl => Slot.tick_of_inactive s.params (h sl hsl)).trans
      (List.map_id' s.slots)
  have hevents : s.events ++ tagged s.cmdPort (tickAlerts s.params 0 s.slots) = s.events := by
    rw [tickAlerts_of_inactive s.params h, tagged, List.map_nil, List.append_nil]
  rw [exec_tmrTick, hslots, hevents]

/-! ### An empty ring and an aborted walk -/

/-- `RX_STEP` waits on an empty ring (R114). -/
theorem exec_rxStep_of_empty {s : State} (h : s.rxCount = 0#9) : exec .rxStep s = .next s := by
  have hcount : s.rxCount.toNat = 0 := by rw [h]; rfl
  have hempty : s.unconsumed = [] := List.eq_nil_of_length_eq_zero (s.unconsumed_length.trans hcount)
  have hwait : execRxStep s = _ := execRxStep_of_no_sof (hempty ▸ List.not_mem_nil)
  exact hwait.trans (if_neg (by omega))

/-- `FX_TAKE` of any length reports ABORTED and nothing else in an aborted walk (R156). -/
theorem exec_fxTake_of_aborted (len : BitVec 8) {s : State} (h : s.fxAbort = true) :
    exec (.fxTake len) s = .next (s.emit (.fxError .aborted len s.fxCur)) := by
  rw [exec_fxTake, if_pos h]

/-! ### Straight after reset -/

/-- No slot is active after reset (R44, R31). -/
theorem State.resetWith_slots_inactive (p : Params) :
    ∀ sl ∈ (State.resetWith p).slots, sl.active = false := by
  intro sl hsl
  rw [List.eq_of_mem_replicate hsl]
  rfl

/-- Settles O15: after reset the ring is empty, no slot is active and the walk is aborted; `ID_DECODE`
and `TX_SEND` read no state. -/
theorem behaviourStraightAfterReset : Obligations.BehaviourStraightAfterReset := by
  intro p node fidx len data id s
  have hinactive : ∀ sl ∈ s.slots, sl.active = false := State.resetWith_slots_inactive p
  exact ⟨exec_rxStep_of_empty rfl, exec_tmrTick_of_inactive hinactive,
    exec_tmrKick_of_inactive node fidx hinactive, exec_fxTake_of_aborted len rfl,
    exec_idDecode id s, exec_txSend len data s⟩

end Sys2Proof.Machine
end

section
/-! PROOFS. A command word and its fields: a word that matches a row of R82 is the word its operands
are packed into, so decoding and encoding are inverse to each other, and the words decoding rejects
are those that no command encodes to (R80 to R84, R191). -/

namespace Sys2Proof.Machine
open Sys2Proof.Laws

/-! ### A word as its four fields (R80) -/

/-- `a16 = cmd[31:16]` (R80), the key operand with its reserved bit. -/
def cmdA16 (w : CmdWord) : BitVec 16 := w.extractLsb' 16 16

/-- `a16` of a packed word. -/
@[simp] theorem cmdA16_packCmd (o a : BitVec 8) (k : BitVec 16) (d : BitVec 64) :
    cmdA16 (packCmd o a k d) = k := by
  refine BitVec.eq_of_getLsbD_eq fun i hi => ?_
  simp [cmdA16, getLsbD_packCmd, hi, show ¬16 + i < 8 by omega, show 16 + i < 32 by omega]

/-- Every word is packed from its own fields (R80). -/
theorem packCmd_fields (w : CmdWord) :
    packCmd (cmdOpc w) (cmdA8 w) (cmdA16 w) (cmdD64 w) = w := by
  refine BitVec.eq_of_getLsbD_eq fun i hi => ?_
  rw [getLsbD_packCmd]
  simp only [cmdOpc, cmdA8, cmdA16, cmdD64, BitVec.getLsbD_extractLsb']
  split_ifs
  · simp [*]
  · rw [show 8 + (i - 8) = i by omega, decide_eq_true (by omega), Bool.true_and]
  · rw [show 16 + (i - 16) = i by omega, decide_eq_true (by omega), Bool.true_and]
  · rw [show 32 + (i - 32) = i by omega, decide_eq_true (by omega), Bool.true_and]

/-- The nodeId of a word is that of its key operand (R80). -/
theorem cmdNode_eq (w : CmdWord) : cmdNode w = (cmdA16 w).extractLsb' 0 7 := by
  rw [← packCmd_fields w, cmdNode_packCmd, cmdA16_packCmd]

/-- The frame index of a word is that of its key operand (R80). -/
theorem cmdFidx_eq (w : CmdWord) : cmdFidx w = (cmdA16 w).extractLsb' 8 8 := by
  rw [← packCmd_fields w, cmdFidx_packCmd, cmdA16_packCmd]

/-- The 32-bit operand of a word is the lower half of `d64` (R80). -/
theorem cmdD32_eq (w : CmdWord) : cmdD32 w = (cmdD64 w).setWidth 32 := by
  rw [← packCmd_fields w, cmdD32_packCmd, cmdD64_packCmd]

/-! ### Reserved bits (R81) -/

/-- A key operand with reserved bit 0 is packed from its nodeId and frame index (R80). -/
theorem packKey_of_reserved_zero {k : BitVec 16} (h : k &&& 0x0080#16 = 0#16) :
    packKey (k.extractLsb' 0 7) (k.extractLsb' 8 8) = k := by
  have hbit : k.getLsbD 7 = false := by
    simpa using congrArg (fun v => v.getLsbD 7) h
  refine BitVec.eq_of_getLsbD_eq fun i hi => ?_
  rw [getLsbD_packKey]
  simp only [BitVec.getLsbD_extractLsb']
  split_ifs with h7 h8
  · simp [h7]
  · rw [show i = 7 by omega, hbit]
  · rw [show 8 + (i - 8) = i by omega, decide_eq_true (by omega), Bool.true_and]

/-- A `d64` whose upper half is 0 is its lower half extended by zeros (R81). -/
theorem setWidth_of_upper_zero {d : BitVec 64} (h : d &&& 0xFFFFFFFF00000000#64 = 0#64) :
    (d.setWidth 32).setWidth 64 = d := by
  have hupper : ∀ i, 32 ≤ i → i < 64 → d.getLsbD i = false := by
    intro i hlo hhi
    have hmask : (0xFFFFFFFF00000000#64).getLsbD i = true := by
      interval_cases i <;> rfl
    simpa [hmask] using congrArg (fun v => v.getLsbD i) h
  refine BitVec.eq_of_getLsbD_eq fun i hi => ?_
  rw [BitVec.getLsbD_setWidth, BitVec.getLsbD_setWidth]
  obtain hlo | hhi := lt_or_ge i 32
  · simp [hlo, hi]
  · simp [hupper i hhi hi]

/-- The match word of R82 is the opcode with every other field 0. -/
theorem matchWord_eq_packCmd (op : Opcode) : op.matchWord = packCmd op.toByte 0#8 0#16 0#64 := by
  cases op <;> decide

/-- A word that matches a row has the row's opcode, and zeros in the row's reserved bits, field by
field (R82). -/
theorem fields_of_matches {op : Opcode} {w : CmdWord} {a' : BitVec 8} {k' : BitVec 16}
    {d' : BitVec 64} (h : w &&& op.mask = op.matchWord)
    (hm : op.mask = packCmd (BitVec.allOnes 8) a' k' d') :
    w = packCmd op.toByte (cmdA8 w) (cmdA16 w) (cmdD64 w) ∧
      cmdA8 w &&& a' = 0#8 ∧ cmdA16 w &&& k' = 0#16 ∧ cmdD64 w &&& d' = 0#64 := by
  have hmasked := packCmd_and_packCmd (cmdOpc w) (BitVec.allOnes 8) (cmdA8 w) a' (cmdA16 w) k'
    (cmdD64 w) d'
  rw [packCmd_fields, ← hm, h, matchWord_eq_packCmd] at hmasked
  refine ⟨?word, ?a8, ?a16, ?d64⟩
  case word => rw [← cmdOpc_of_matches h, packCmd_fields]
  case a8 => simpa using (congrArg cmdA8 hmasked).symm
  case a16 => simpa using (congrArg cmdA16 hmasked).symm
  case d64 => simpa using (congrArg cmdD64 hmasked).symm

/-! ### Encoding what was decoded -/

/-- The operands of a word that matches a row encode to the word itself: what the row reserves is 0,
and every other field is an operand (R82, R83). -/
theorem encode_operands_of_matches {op : Opcode} {w : CmdWord}
    (h : w &&& op.mask = op.matchWord) : encode (op.operands w) = w := by
  cases op with
  | nop | rxStep | rxError | tmrTick =>
    obtain ⟨hw, ha, hk, hd⟩ := fields_of_matches (a' := BitVec.allOnes 8)
      (k' := BitVec.allOnes 16) (d' := BitVec.allOnes 64) h (by decide)
    rw [BitVec.and_allOnes] at ha hk hd
    rw [ha, hk, hd] at hw
    exact hw.symm
  | rxByte | fxTake =>
    obtain ⟨hw, _, hk, hd⟩ := fields_of_matches (a' := 0#8) (k' := BitVec.allOnes 16)
      (d' := BitVec.allOnes 64) h (by decide)
    rw [BitVec.and_allOnes] at hk hd
    rw [hk, hd] at hw
    exact hw.symm
  | txSend =>
    obtain ⟨hw, _, hk, _⟩ := fields_of_matches (a' := 0#8) (k' := BitVec.allOnes 16) (d' := 0#64)
      h (by decide)
    rw [BitVec.and_allOnes] at hk
    rw [hk] at hw
    exact hw.symm
  | fxLoad =>
    obtain ⟨hw, ha, hk, _⟩ := fields_of_matches (a' := BitVec.allOnes 8)
      (k' := BitVec.allOnes 16) (d' := 0#64) h (by decide)
    rw [BitVec.and_allOnes] at ha hk
    rw [ha, hk] at hw
    exact hw.symm
  | idDecode =>
    obtain ⟨hw, ha, hk, hd⟩ := fields_of_matches (a' := BitVec.allOnes 8)
      (k' := BitVec.allOnes 16) (d' := 0xFFFFFFFF00000000#64) h (by decide)
    rw [BitVec.and_allOnes] at ha hk
    rw [ha, hk] at hw
    rw [Opcode.operands, encode, cmdD32_eq, setWidth_of_upper_zero hd]
    exact hw.symm
  | tmrConfig =>
    obtain ⟨hw, _, hk, hd⟩ := fields_of_matches (a' := 0#8) (k' := 0x0080#16)
      (d' := 0xFFFFFFFF00000000#64) h (by decide)
    rw [Opcode.operands, encode, cmdNode_eq, cmdFidx_eq, cmdD32_eq, packKey_of_reserved_zero hk,
      setWidth_of_upper_zero hd]
    exact hw.symm
  | tmrKick =>
    obtain ⟨hw, ha, hk, hd⟩ := fields_of_matches (a' := BitVec.allOnes 8) (k' := 0x0080#16)
      (d' := BitVec.allOnes 64) h (by decide)
    rw [BitVec.and_allOnes] at ha hd
    rw [ha, hd] at hw
    rw [Opcode.operands, encode, cmdNode_eq, cmdFidx_eq, packKey_of_reserved_zero hk]
    exact hw.symm

/-- A legal word is the encoding of the command it decodes to (R82, R83). -/
theorem encode_of_decode {w : CmdWord} {i : Instr} (h : decode w = .ok i) : encode i = w := by
  obtain ⟨hmatch, hoperands⟩ := decode_eq_ok_iff.1 h
  rw [← hoperands]
  exact encode_operands_of_matches hmatch

/-! ### The words decoding rejects -/

/-- The bytes that name no opcode (R81). -/
theorem opcodeOfByte_eq_none_iff (b : BitVec 8) :
    opcodeOfByte b = none ↔
      b.toNat ∉ [0x00, 0x01, 0x02, 0x03, 0x10, 0x20, 0x21, 0x22, 0x30, 0x31, 0x32] := by
  unfold opcodeOfByte
  split <;> simp_all

/-- What decoding rejects for its opcode (R191, first check). -/
theorem decode_eq_badOpcode_iff (w : CmdWord) :
    decode w = .error .badOpcode ↔ opcodeOfByte (cmdOpc w) = none := by
  unfold decode
  cases opcodeOfByte (cmdOpc w) with
  | none => simp
  | some op => by_cases hmatch : w &&& op.mask = op.matchWord <;> simp [hmatch]

/-- Decoding does not check the slot (log entry 11). -/
theorem decode_ne_slotRange (w : CmdWord) : decode w ≠ .error .slotRange := by
  unfold decode
  split
  · simp
  · split <;> simp

/-- What decoding rejects with a legal opcode: the words no command encodes to (R191, second
check). -/
theorem decode_eq_reservedNonzero_iff (w : CmdWord) :
    decode w = .error .reservedNonzero ↔
      opcodeOfByte (cmdOpc w) ≠ none ∧ ∀ i, encode i ≠ w := by
  constructor
  · intro h
    refine ⟨fun hnone => ?opcode, fun i hi => ?word⟩
    case opcode => simp [(decode_eq_badOpcode_iff w).2 hnone] at h
    case word => simp [← hi, decode_encode] at h
  · rintro ⟨hopcode, hword⟩
    cases hd : decode w with
    | ok i => exact absurd (encode_of_decode hd) (hword i)
    | error c =>
      cases c with
      | badOpcode => exact absurd ((decode_eq_badOpcode_iff w).1 hd) hopcode
      | reservedNonzero => rfl
      | slotRange => exact absurd hd (decode_ne_slotRange w)

/-! ### The obligations -/

/-- Settles O1: an encoded word matches its command's row, and its operands are read back. -/
theorem decodeOfEncodeIsTheCommand : Obligations.DecodeOfEncodeIsTheCommand :=
  decode_encode

/-- Settles O2: a word decodes only when it matches a row, and such a word is packed from its
operands. -/
theorem encodeOfDecodeIsTheWord : Obligations.EncodeOfDecodeIsTheWord :=
  fun _ _ => encode_of_decode

/-- Settles O4: the first check is about the low byte, the second about the words of no command. -/
theorem rejectedWordsAndTheirCauses : Obligations.RejectedWordsAndTheirCauses := by
  intro w legal
  have hopcode : opcodeOfByte (cmdOpc w) = none ↔ w.toNat % 256 ∉ legal := by
    rw [opcodeOfByte_eq_none_iff, cmdOpc_toNat]
  refine ⟨(decode_eq_badOpcode_iff w).trans hopcode, ?reserved, decode_ne_slotRange w⟩
  case reserved => rw [decode_eq_reservedNonzero_iff, Ne, hopcode, not_not]

/-- Settles O45: the word runs `TMR_CONFIG`, whose report carries the command's encoding, which is
the word. -/
theorem tmrConfigOfAMissingSlotIsIllegal : Obligations.TmrConfigOfAMissingSlotIsIllegal := by
  intro s w slot node fidx tmo hdecode hslot
  have hrun : runWord w s = exec (.tmrConfig slot node fidx tmo) s := by
    simp only [runWord, hdecode]
  rw [hrun, exec_tmrConfig_of_ge hslot, encode_of_decode hdecode]
  rfl

end Sys2Proof.Machine
end

section
/-! PROOFS. What a command can do, said once: one change of the state's own items and a list of
reports, the same whatever port tags them and whatever was reported before (R13, R20, R200, R201,
R207). -/

namespace Sys2Proof.Machine

/-! ### The terms -/

/-- The state with another tag for its reports and another stream of earlier ones. -/
def State.retag (s : State) (q : Port) (ev : List Event) : State :=
  { s with cmdPort := q, events := ev }

/-- The codes of the events a command may emit (the table of R201). -/
def eventCodes : Opcode → List (BitVec 8)
  | .nop => []
  | .rxByte => [0x04#8]
  | .rxStep => [0x01#8, 0x02#8]
  | .rxError => [0x03#8]
  | .txSend => [0x05#8]
  | .idDecode => [0x06#8]
  | .fxLoad => []
  | .fxTake => [0x07#8, 0x08#8]
  | .tmrConfig => [0x0A#8]
  | .tmrKick => []
  | .tmrTick => [0x09#8]

/-- What a command can write, events aside (the "written by" column of R20). -/
inductive Change : Instr → State → State → Prop
  | nothing (i : Instr) (s : State) : Change i s s
  | append (b : BitVec 8) (s : State) : s.rxCount.toNat < 256 →
      Change (.rxByte b) s (s.ringAppend b)
  | drop (n : Nat) (s : State) : n ≤ s.rxCount.toNat → Change .rxStep s (s.ringDrop n)
  | load (data : BitVec 64) (s : State) :
      Change (.fxLoad data) s { s with fxData := data, fxCur := 0#7, fxAbort := false }
  | abort (len : BitVec 8) (s : State) : Change (.fxTake len) s s.setFxAbort
  | advance (len : BitVec 8) (s : State) : s.fxCur.toNat + len.toNat ≤ 64 →
      Change (.fxTake len) s (s.setFxCur (BitVec.ofNat 7 (s.fxCur.toNat + len.toNat)))
  | config (slot : BitVec 8) (node : BitVec 7) (fidx : BitVec 8) (tmo : BitVec 32) (s : State) :
      Change (.tmrConfig slot node fidx tmo) s
        (s.setSlots (s.slots.set slot.toNat ⟨true, node, fidx, tmo, tmo⟩))
  | kick (node : BitVec 7) (fidx : BitVec 8) (s : State) :
      Change (.tmrKick node fidx) s (s.setSlots (s.slots.map (Slot.kick node fidx)))
  | tick (s : State) : Change .tmrTick s (s.setSlots (s.slots.map (Slot.tick s.params)))

/-- A command's change and its reports, under every tag and behind every earlier stream. -/
def Acts (i : Instr) (s u : State) (bodies : List EventBody) : Prop :=
  Change i s u ∧ (∀ body ∈ bodies, body.code ∈ eventCodes i.opcode) ∧
    ∀ q ev, exec i (s.retag q ev) = .next ((u.retag q ev).emitAll bodies)

/-! ### Reports -/

/-- A report more is one list of reports more (R12). -/
theorem State.emitAll_singleton (s : State) (body : EventBody) : s.emitAll [body] = s.emit body :=
  rfl

/-- Reporting nothing changes nothing. -/
@[simp] theorem State.emitAll_nil (s : State) : s.emitAll [] = s := by
  rw [State.emitAll, List.map_nil, List.append_nil]

/-- No change touches what the arbiter and the outside write, the parameters or the events (R39). -/
theorem Change.frame {i : Instr} {s u : State} (h : Change i s u) :
    u.params = s.params ∧ u.ports = s.ports ∧ u.events = s.events ∧ u.cmdPort = s.cmdPort ∧
      u.resetPin = s.resetPin ∧ u.arbTurn = s.arbTurn := by
  cases h <;> exact ⟨rfl, rfl, rfl, rfl, rfl, rfl⟩

/-! ### Each command acts -/

/-- `RX_BYTE` appends, reports the dropped byte, or is not accepted (R110, R111). -/
theorem exec_rxByte_acts (b : BitVec 8) (s : State) : ∃ u bodies, Acts (.rxByte b) s u bodies := by
  obtain ⟨hready, _⟩ | ⟨hready, hpolicy, _⟩ | ⟨hready, hpolicy, _⟩ := execRxByte_cases b s
  · refine ⟨_, [], .append b s (s.rxReady_iff.1 hready), by simp, fun q ev => ?_⟩
    rw [State.emitAll_nil]
    exact if_pos hready
  · refine ⟨_, [], .nothing _ s, by simp, fun q ev => ?_⟩
    rw [State.emitAll_nil]
    exact (if_neg (ne_true_of_eq_false hready)).trans (by simp [State.retag, hpolicy])
  · refine ⟨_, [.rxDrop b], .nothing _ s, by simp [Instr.opcode, eventCodes, EventBody.code],
      fun q ev => ?_⟩
    exact (if_neg (ne_true_of_eq_false hready)).trans
      (by simp [State.retag, hpolicy, State.emitAll_singleton])

/-- Whatever a mismatch consumes, it is at most the candidate (R117). -/
theorem resyncLength_le (b : Byte) {w : List Byte} (hw : w.length = 14) :
    resyncLength (b :: w) ≤ 15 := by
  rw [resyncLength_cons b hw]
  exact Nat.succ_le_succ (hw ▸ (List.takeWhile_prefix _).length_le)

/-- `RX_STEP` drops bytes, and reports a whole candidate if there is one (R112 to R117). -/
theorem exec_rxStep_acts (s : State) : ∃ u bodies, Acts .rxStep s u bodies := by
  by_cases hsof : 0xFF#8 ∈ s.unconsumed
  case neg =>
    have hstep := fun q ev => execRxStep_of_no_sof (s := s.retag q ev) hsof
    by_cases hmany : 128 < s.rxCount.toNat
    · refine ⟨_, [], .drop s.rxCount.toNat s le_rfl, by simp, fun q ev => ?_⟩
      exact (hstep q ev).trans ((if_pos hmany).trans (by rw [State.emitAll_nil]; rfl))
    · refine ⟨_, [], .nothing _ s, by simp, fun q ev => ?_⟩
      exact (hstep q ev).trans ((if_neg hmany).trans (by rw [State.emitAll_nil]))
  case pos =>
    obtain ⟨x, y, hs, hx⟩ := List.eq_append_cons_of_mem hsof
    have hcount := State.rxCount_of_unconsumed hs
    rw [List.length_append, List.length_cons] at hcount
    by_cases hshort : y.length < 14
    · refine ⟨_, [], .drop x.length s (by omega), by simp, fun q ev => ?_⟩
      have hstep := execRxStep_of_sof (s := s.retag q ev) hs hx
      exact hstep.trans ((if_pos hshort).trans (by rw [State.emitAll_nil]; rfl))
    · have hw : (y.take 14).length = 14 := by
        rw [List.length_take]
        omega
      rw [← List.take_append_drop 14 y] at hs
      have hstep := fun q ev => execRxStep_of_candidate (s := s.retag q ev) hs hx hw
      have hresync := resyncLength_le 0xFF#8 hw
      by_cases hvalid : frameValid (0xFF#8 :: y.take 14) = true
      · exact ⟨_, [frameOkEvent (0xFF#8 :: y.take 14)], .drop (x.length + 15) s (by omega),
          by simp [Instr.opcode, eventCodes, frameOkEvent, EventBody.code],
          fun q ev => (hstep q ev).trans (if_pos hvalid)⟩
      · exact ⟨_, [frameBadEvent (0xFF#8 :: y.take 14)], .drop (x.length + _) s (by omega),
          by simp [Instr.opcode, eventCodes, frameBadEvent, EventBody.code],
          fun q ev => (hstep q ev).trans (if_neg hvalid)⟩

/-- `FX_TAKE` reports one value or one error (R156, R157). -/
theorem exec_fxTake_acts (len : BitVec 8) (s : State) :
    ∃ u bodies, Acts (.fxTake len) s u bodies := by
  have hvalue : ∀ v l c, (EventBody.fxValue v l c).code ∈ eventCodes .fxTake := by
    simp [eventCodes, EventBody.code]
  have herror : ∀ v l c, (EventBody.fxError v l c).code ∈ eventCodes .fxTake := by
    simp [eventCodes, EventBody.code]
  obtain habort | habort := Bool.eq_false_or_eq_true s.fxAbort
  · exact ⟨_, [.fxError .aborted len s.fxCur], .nothing _ s,
      List.forall_mem_singleton.2 (herror _ _ _),
      fun q ev => (exec_fxTake len (s.retag q ev)).trans (if_pos habort)⟩
  by_cases hlen : 32 < len.toNat
  · exact ⟨_, [.fxError .invalidLen len s.fxCur], .abort len s,
      List.forall_mem_singleton.2 (herror _ _ _),
      fun q ev => (exec_fxTake len (s.retag q ev)).trans
        ((if_neg (ne_true_of_eq_false habort)).trans (if_pos hlen))⟩
  by_cases hpast : 64 < s.fxCur.toNat + len.toNat
  · exact ⟨_, [.fxError .overflow len s.fxCur], .abort len s,
      List.forall_mem_singleton.2 (herror _ _ _),
      fun q ev => (exec_fxTake len (s.retag q ev)).trans
        ((if_neg (ne_true_of_eq_false habort)).trans ((if_neg hlen).trans (if_pos hpast)))⟩
  · exact ⟨_, [.fxValue (fxField s.fxData s.fxCur.toNat len.toNat) len s.fxCur],
      .advance len s (Nat.not_lt.1 hpast), List.forall_mem_singleton.2 (hvalue _ _ _),
      fun q ev => exec_fxTake_of_fits (s := s.retag q ev) habort (Nat.not_lt.1 hlen)
        (Nat.not_lt.1 hpast)⟩

/-- `TMR_CONFIG` writes one slot or reports an illegal command (R172, R84). -/
theorem exec_tmrConfig_acts (slot : BitVec 8) (node : BitVec 7) (fidx : BitVec 8)
    (tmo : BitVec 32) (s : State) :
    ∃ u bodies, Acts (.tmrConfig slot node fidx tmo) s u bodies := by
  obtain hslot | hslot := lt_or_ge slot.toNat s.params.nt
  · refine ⟨_, [], .config slot node fidx tmo s, by simp, fun q ev => ?_⟩
    rw [State.emitAll_nil]
    exact exec_tmrConfig_of_lt (s := s.retag q ev) hslot node fidx tmo
  · exact ⟨_, [.illegal .slotRange (encode (.tmrConfig slot node fidx tmo))], .nothing _ s,
      by simp [Instr.opcode, eventCodes, EventBody.code],
      fun q ev => exec_tmrConfig_of_ge (s := s.retag q ev) hslot node fidx tmo⟩

/-- The alerts of a tick are alerts (R178). -/
theorem code_of_mem_tickAlerts {p : Params} {i : Nat} {slots : List Slot} {body : EventBody}
    (h : body ∈ tickAlerts p i slots) : body.code = 0x09#8 := by
  rw [tickAlerts_eq_filterMap, List.mem_filterMap] at h
  obtain ⟨x, _, hx⟩ := h
  split_ifs at hx
  cases hx
  rfl

/-- Every command is one change and a list of reports of its codes, whatever the tag (R201,
R207). -/
theorem exec_acts (i : Instr) (s : State) : ∃ u bodies, Acts i s u bodies := by
  cases i with
  | rxByte b => exact exec_rxByte_acts b s
  | rxStep => exact exec_rxStep_acts s
  | fxTake len => exact exec_fxTake_acts len s
  | tmrConfig slot node fidx tmo => exact exec_tmrConfig_acts slot node fidx tmo s
  | nop => exact ⟨s, [], .nothing _ s, by simp, fun _ _ => by rw [State.emitAll_nil]; rfl⟩
  | rxError =>
    exact ⟨s, [.ioError], .nothing _ s, by simp [Instr.opcode, eventCodes, EventBody.code],
      fun _ _ => rfl⟩
  | txSend len data =>
    exact ⟨s, [.txFrame (txFrameBytes (inetCksum (txPayload len data)) (txPayload len data))],
      .nothing _ s, by simp [Instr.opcode, eventCodes, EventBody.code],
      fun q ev => exec_txSend len data (s.retag q ev)⟩
  | idDecode id =>
    exact ⟨s, [.idFields id (idFields id)], .nothing _ s,
      by simp [Instr.opcode, eventCodes, EventBody.code],
      fun q ev => exec_idDecode id (s.retag q ev)⟩
  | fxLoad data =>
    exact ⟨_, [], .load data s, by simp, fun _ _ => by rw [State.emitAll_nil]; rfl⟩
  | tmrKick node fidx =>
    exact ⟨_, [], .kick node fidx s, by simp, fun _ _ => by rw [State.emitAll_nil]; rfl⟩
  | tmrTick =>
    exact ⟨_, tickAlerts s.params 0 s.slots, .tick s,
      fun body hmem => List.mem_singleton.2 (code_of_mem_tickAlerts hmem),
      fun q ev => exec_tmrTick (s.retag q ev)⟩

/-- What a completed command did: its change, then its reports. -/
theorem exec_effect {i : Instr} {s t : State} (h : exec i s = .next t) :
    ∃ u bodies, Acts i s u bodies ∧ t = u.emitAll bodies := by
  obtain ⟨u, bodies, hacts⟩ := exec_acts i s
  refine ⟨u, bodies, hacts, ?_⟩
  obtain ⟨hchange, _, hexec⟩ := hacts
  obtain ⟨_, _, hevents, hport, _, _⟩ := hchange.frame
  have hself : u.retag s.cmdPort s.events = u := by rw [← hevents, ← hport]; rfl
  have hnext := h.symm.trans (hexec s.cmdPort s.events)
  rw [hself] at hnext
  exact Host.Outcome.next.inj hnext

end Sys2Proof.Machine
end

section
/-! PROOFS. The ports and the step: what the arbiter may pick, what a step at a port runs, and that
a waiting or reset machine does nothing else (R60, R111, R192, R206, R215, R230). -/

namespace Sys2Proof.Machine

/-! ### Held words (R111) -/

/-- What is held: a legal `RX_BYTE` at a full ring under HOLD (R111, R206). -/
theorem State.held_iff (s : State) (w : CmdWord) :
    s.held w = true ↔ (∃ b, decode w = .ok (.rxByte b)) ∧ 256 ≤ s.rxCount.toNat ∧
      s.params.rxFullPolicy = .hold := by
  unfold State.held
  split
  · next b hdecode =>
    simp [hdecode, State.not_rxReady_iff]
  · next hother =>
    simp only [Bool.false_eq_true, false_iff]
    rintro ⟨⟨b, hb⟩, _⟩
    exact hother b hb

/-- An illegal word is never held (R192). -/
theorem State.held_of_illegal (s : State) {w : CmdWord} {c : IllegalCause}
    (h : decode w = .error c) : s.held w = false := by
  simp [State.held, h]

/-- The head of a port is its enabled head unless it is held (R206). -/
theorem State.enabledHead_of_cons {s : State} {p : Port} {w : CmdWord} {rest : List CmdWord}
    (h : s.ports.get p = w :: rest) : s.enabledHead p = if s.held w then none else some w := by
  rw [State.enabledHead, h]

/-- The enabled ports are those with a head that is not held (R206). -/
theorem State.mem_enabledPorts_iff {s : State} {p : Port} :
    p ∈ s.enabledPorts ↔ ∃ w rest, s.ports.get p = w :: rest ∧ ¬s.held w = true := by
  rw [State.mem_enabledPorts, Option.isSome_iff_exists]
  simp only [State.enabledHead_eq_some, Bool.not_eq_true, exists_and_right]

/-! ### The step at a port -/

/-- What a port's arbiter step leaves of the head word (R206). -/
theorem State.accept_of_cons {s : State} {p : Port} {w : CmdWord} {rest : List CmdWord}
    (h : s.ports.get p = w :: rest) :
    s.accept p =
      { s with ports := s.ports.put p rest, cmdPort := p, arbTurn := s.arbTurn + 1 } := by
  rw [State.accept, h, List.tail_cons]

/-- The step at a port with an enabled head runs that word (R206). -/
theorem stepPort_of_enabledHead {s : State} {p : Port} {w : CmdWord}
    (h : s.enabledHead p = some w) : stepPort p s = runWord w (s.accept p) := by
  rw [stepPort, h]

/-- The step at a port without an enabled head changes nothing (R111, R206). -/
theorem stepPort_of_no_enabledHead {s : State} {p : Port} (h : s.enabledHead p = none) :
    stepPort p s = .next s := by
  rw [stepPort, h]

/-- A legal word runs its command (R191). -/
theorem runWord_of_decode_ok {w : CmdWord} {i : Instr} (h : decode w = .ok i) (s : State) :
    runWord w s = exec i s := by
  rw [runWord, h]

/-- An illegal word raises its cause (R192). -/
theorem runWord_of_decode_error {w : CmdWord} {c : IllegalCause} (h : decode w = .error c)
    (s : State) : runWord w s = .next (s.raiseIllegal c w) := by
  rw [runWord, h]

/-! ### The step of the machine -/

section
variable {s : State} (hvalid : s.params.valid = true)
include hvalid

/-- An asserted reset input is applied (R230). -/
theorem step_of_reset (hpin : s.resetPin = true) : step s = .next s.applyReset := by
  rw [step, machineStep, if_pos hvalid, if_pos hpin]

/-- The step at the port the arbiter picks (R206). -/
theorem step_of_arbitrate (hpin : s.resetPin = false) {p : Port}
    (hpick : arbitrate (Config.arbiterPick s.arbTurn) s.enabledPorts = some p) :
    step s = stepPort p s := by
  rw [step, machineStep, if_pos hvalid, if_neg (ne_true_of_eq_false hpin), hpick]

/-- With no enabled port the block waits (R214, R232). -/
theorem step_of_no_enabledPorts (hpin : s.resetPin = false) (hnone : s.enabledPorts = []) :
    step s = .next s := by
  rw [step, machineStep, if_pos hvalid, if_neg (ne_true_of_eq_false hpin),
    arbitrate_eq_none.2 hnone]

end

/-! ### The arbiter -/

/-- With an enabled port the arbiter picks one (R206). -/
theorem arbitrate_picks {en : List Port} (h : en ≠ []) (k : Nat) : ∃ p, arbitrate k en = some p :=
  Option.ne_none_iff_exists'.1 (mt arbitrate_eq_none.1 h)

/-- Every enabled port is a possible pick (R206). -/
theorem arbitrate_reaches {en : List Port} {p : Port} (h : p ∈ en) :
    ∃ k, arbitrate k en = some p := by
  obtain ⟨k, hk, hp⟩ := List.getElem_of_mem h
  refine ⟨k, ?_⟩
  unfold arbitrate
  split
  · cases h
  · exact congrArg some (List.mem_singleton.1 h).symm
  · next q r rest =>
    have hlt : k < rest.length + 2 := hk
    rw [Nat.mod_eq_of_lt hlt, List.getElem?_eq_getElem hk, hp]

/-! ### The obligations -/

/-- Settles O6: the enabled head is the word at the head, and a word that decodes runs its
command. -/
theorem stepRunsTheDecodedCommand : Obligations.StepRunsTheDecodedCommand := by
  intro s p w rest i hqueue hdecode
  have hport : s.enabledHead p = some w → stepPort p s =
      exec i { s with ports := s.ports.put p rest, cmdPort := p, arbTurn := s.arbTurn + 1 } := by
    intro hhead
    rw [stepPort_of_enabledHead hhead, runWord_of_decode_ok hdecode, State.accept_of_cons hqueue]
  refine ⟨hport, fun hvalid hpin hpick => ?step⟩
  case step =>
    obtain ⟨v, rest', hv, hfree⟩ := State.mem_enabledPorts_iff.1 (arbitrate_mem hpick)
    obtain ⟨rfl, rfl⟩ : w = v ∧ rest = rest' := List.cons_eq_cons.1 (hqueue.symm.trans hv)
    have hhead : s.enabledHead p = some w := by rw [State.enabledHead_of_cons hqueue, if_neg hfree]
    rw [step_of_arbitrate hvalid hpin hpick, hport hhead]

/-- Settles O7: an illegal word is not held, and its run is one report. -/
theorem illegalWordIsReportedAndChangesNothing :
    Obligations.IllegalWordIsReportedAndChangesNothing := by
  refine ⟨⟨rfl, rfl, rfl⟩, fun s p w rest c hqueue hdecode => ?_⟩
  have hhead : s.enabledHead p = some w := by
    rw [State.enabledHead_of_cons hqueue, s.held_of_illegal hdecode, if_neg Bool.false_ne_true]
  refine ⟨hhead, ?_⟩
  rw [stepPort_of_enabledHead hhead, runWord_of_decode_error hdecode, State.accept_of_cons hqueue]
  rfl

/-- Settles O8: the enabled heads are those not held, and the arbiter indexes the list of their
ports. -/
theorem arbiterMayPickEveryEnabledPort : Obligations.ArbiterMayPickEveryEnabledPort := by
  intro s
  refine ⟨fun p => ?enabled, fun p => arbitrate_reaches, fun k p => arbitrate_mem, arbitrate_picks⟩
  case enabled => simp only [State.mem_enabledPorts_iff, State.held_iff]

/-- Settles O9: the arbiter picks nothing only when nothing is enabled. -/
theorem stepIsAnArbiterPickOrAWait : Obligations.StepIsAnArbiterPickOrAWait := by
  intro s hvalid hpin
  refine ⟨step_of_no_enabledPorts hvalid hpin, fun hsome => ?pick⟩
  case pick =>
    obtain ⟨p, hpick⟩ := arbitrate_picks hsome (Config.arbiterPick s.arbTurn)
    exact ⟨p, arbitrate_mem hpick, step_of_arbitrate hvalid hpin hpick⟩

/-- Settles O12: a stuck state has no enabled port, and the asserted reset empties the ports. -/
theorem stuckRunIsReleasedByReset : Obligations.StuckRunIsReleasedByReset := by
  intro s hvalid hpin hstuck
  obtain ⟨_, hnone⟩ := Bool.and_eq_true_iff.1 hstuck
  exact ⟨step_of_no_enabledPorts hvalid hpin (List.isEmpty_iff.1 hnone), _,
    step_of_reset (s := s.assertReset) hvalid rfl, rfl⟩

/-- Settles O14: the step with the reset input asserted is `State.applyReset`. -/
theorem resetInputResetsStateAndKeepsEvents : Obligations.ResetInputResetsStateAndKeepsEvents := by
  intro s hvalid hpin
  exact ⟨_, step_of_reset hvalid hpin, rfl, rfl, rfl, rfl, rfl, rfl, Ports.get_empty, rfl, rfl, rfl⟩

/-- Settles O51: each command's cases all answer a next state. -/
theorem everyCommandCompletesInOneStep : Obligations.EveryCommandCompletesInOneStep :=
  exec_completes

end Sys2Proof.Machine
end

section
/-! PROOFS. The whole block, from what a command can do: its reports and their codes, what it leaves
unchanged, its flags, and the order of the ports (R20, R38, R51, R200, R201, R206, R207). -/

namespace Sys2Proof.Machine

/-! ### Reports -/

/-- Reports tagged with one port are what `State.emitAll` appends (R200). -/
theorem State.emitAll_eq (s : State) (bodies : List EventBody) :
    s.emitAll bodies = { s with events := s.events ++ tagged s.cmdPort bodies } :=
  rfl

/-- Reports tagged with one port, one list after the other. -/
theorem tagged_append (p : Port) (a b : List EventBody) :
    tagged p (a ++ b) = tagged p a ++ tagged p b :=
  List.map_append

/-- The reports of a command join the stream behind the earlier ones (R200). -/
theorem Acts.events {i : Instr} {s u : State} {bodies : List EventBody} (h : Acts i s u bodies) :
    (u.emitAll bodies).events = s.events ++ tagged s.cmdPort bodies := by
  obtain ⟨hchange, _, _⟩ := h
  obtain ⟨_, _, hevents, hport, _, _⟩ := hchange.frame
  rw [State.emitAll_eq, hevents, hport]

/-- A word's run appends reports tagged with the port of the command (R200). -/
theorem runWord_events {w : CmdWord} {s t : State} (h : runWord w s = .next t) :
    ∃ bodies, t.events = s.events ++ tagged s.cmdPort bodies := by
  obtain ⟨i, _, hrun⟩ | ⟨c, _, hrun⟩ := runWord_cases w s
  · obtain ⟨u, bodies, hacts, rfl⟩ := exec_effect (hrun.symm.trans h)
    exact ⟨bodies, hacts.events⟩
  · cases hrun.symm.trans h
    exact ⟨[.illegal c w], rfl⟩

/-- An arbiter step appends reports tagged with the picked port (R200). -/
theorem stepPort_events {p : Port} {s t : State} (h : stepPort p s = .next t) :
    ∃ bodies, t.events = s.events ++ tagged p bodies := by
  obtain ⟨_, hstep⟩ | ⟨w, _, hstep⟩ := stepPort_cases p s
  · cases hstep.symm.trans h
    exact ⟨[], (List.append_nil _).symm⟩
  · exact runWord_events (s := s.accept p) (hstep.symm.trans h)

/-- The outbound stream of two event streams, one after the other (R51). -/
theorem outboundBytes_append (a b : List Event) :
    outboundBytes (a ++ b) = outboundBytes a ++ outboundBytes b := by
  induction a with
  | nil => rfl
  | cons e rest ih =>
    obtain ⟨port, body⟩ := e
    cases body with
    | txFrame bytes => exact (congrArg (bytes ++ ·) ih).trans (List.append_assoc ..).symm
    | _ => exact ih

/-- Reports other than `EV_TX_FRAME` carry no outbound bytes (R51). -/
theorem outboundBytes_tagged_of_code_ne (p : Port) {bodies : List EventBody}
    (h : ∀ body ∈ bodies, body.code ≠ 0x05#8) : outboundBytes (tagged p bodies) = [] := by
  induction bodies with
  | nil => rfl
  | cons body rest ih =>
    obtain ⟨hbody, hrest⟩ := List.forall_mem_cons.1 h
    cases body with
    | txFrame bytes => exact absurd rfl hbody
    | _ => exact ih hrest

/-- `TX_SEND` is the only command with the code of `EV_TX_FRAME` (R201). -/
theorem txFrame_code_mem_iff (op : Opcode) : 0x05#8 ∈ eventCodes op ↔ op = .txSend := by
  cases op <;> decide

/-- Only `TX_SEND` commands have the opcode of `TX_SEND`. -/
theorem opcode_eq_txSend {i : Instr} (h : i.opcode = .txSend) :
    ∃ len data, i = .txSend len data := by
  cases i with
  | txSend len data => exact ⟨len, data, rfl⟩
  | _ => cases h

/-! ### Ports -/

/-- A word's run does not write the ports (R206). -/
theorem runWord_ports {w : CmdWord} {s t : State} (h : runWord w s = .next t) :
    t.ports = s.ports := by
  obtain ⟨i, _, hrun⟩ | ⟨c, _, hrun⟩ := runWord_cases w s
  · obtain ⟨u, bodies, ⟨hchange, _, _⟩, rfl⟩ := exec_effect (hrun.symm.trans h)
    obtain ⟨_, hports, _, _, _, _⟩ := hchange.frame
    exact hports
  · cases hrun.symm.trans h
    rfl

/-! ### Slots -/

/-- A kick writes only `slot_rem` (R175). -/
theorem Slot.kick_config (node : BitVec 7) (fidx : BitVec 8) (sl : Slot) :
    ∃ r, sl.kick node fidx = { sl with rem := r } := by
  unfold Slot.kick
  split
  · exact ⟨_, rfl⟩
  · exact ⟨sl.rem, rfl⟩

/-- A tick writes only `slot_rem` (R178). -/
theorem Slot.tick_config (p : Params) (sl : Slot) : ∃ r, sl.tick p = { sl with rem := r } := by
  obtain ⟨_, h⟩ | ⟨_, _, h⟩ | ⟨_, _, h⟩ := Slot.tick_cases p sl
  · exact ⟨sl.rem, h⟩
  · exact ⟨_, h⟩
  · exact ⟨_, h⟩

/-- What configures a slot: everything but its remaining time (R30). -/
def Slot.config (sl : Slot) : Bool × BitVec 7 × BitVec 8 × BitVec 32 :=
  (sl.valid, sl.node, sl.fidx, sl.tmo)

/-- A table update that writes only `slot_rem` keeps every slot's configuration. -/
theorem map_config_of_rem_only {f : Slot → Slot} (h : ∀ sl, ∃ r, f sl = { sl with rem := r })
    (slots : List Slot) : (slots.map f).map Slot.config = slots.map Slot.config := by
  rw [List.map_map]
  refine List.map_congr_left fun sl _ => ?_
  obtain ⟨r, hr⟩ := h sl
  rw [Function.comp_apply, hr]
  rfl

/-- A change writes the configuration of a slot only by `TMR_CONFIG` (R20, R172). -/
theorem Change.slots_config {i : Instr} {s u : State} (h : Change i s u) :
    u.slots.map Slot.config = s.slots.map Slot.config ∨
      ∃ slot node fidx tmo, i = .tmrConfig slot node fidx tmo := by
  cases h with
  | config => exact .inr ⟨_, _, _, _, rfl⟩
  | kick node fidx => exact .inl (map_config_of_rem_only (Slot.kick_config node fidx) _)
  | tick => exact .inl (map_config_of_rem_only (Slot.tick_config s.params) _)
  | _ => exact .inl rfl

/-- `slot_valid` of a slot after a change: set by a `TMR_CONFIG` of that slot, else as it was
(R38). -/
theorem Change.slot_valid {i : Instr} {s u : State} (h : Change i s u) {j : Nat} {sl : Slot}
    (hsl : s.slots[j]? = some sl) :
    ∃ sl', u.slots[j]? = some sl' ∧
      (sl'.valid = sl.valid ∨ (sl'.valid = true ∧
        ∃ slot node fidx tmo, i = .tmrConfig slot node fidx tmo ∧ slot.toNat = j)) := by
  cases h with
  | config slot node fidx tmo =>
    by_cases hj : slot.toNat = j
    · subst hj
      obtain ⟨hin, _⟩ := List.getElem?_eq_some_iff.1 hsl
      exact ⟨_, List.getElem?_set_self hin, .inr ⟨rfl, _, _, _, _, rfl, rfl⟩⟩
    · exact ⟨sl, (List.getElem?_set_ne hj).trans hsl, .inl rfl⟩
  | kick node fidx =>
    exact ⟨_, (List.getElem?_map ..).trans (congrArg _ hsl), .inl (Slot.kick_valid node fidx sl)⟩
  | tick =>
    exact ⟨_, (List.getElem?_map ..).trans (congrArg _ hsl), .inl (Slot.tick_valid s.params sl)⟩
  | _ => exact ⟨sl, hsl, .inl rfl⟩

/-! ### The obligations -/

/-- Settles O10: the accepted word is the head, and its run does not write the ports. -/
theorem arbiterStepKeepsPortOrder : Obligations.ArbiterStepKeepsPortOrder := by
  intro p s t h
  obtain ⟨hnone, hstep⟩ | ⟨w, hhead, hstep⟩ := stepPort_cases p s
  · cases hstep.symm.trans h
    exact ⟨fun _ _ => rfl, fun _ => rfl, fun w hw => by simp [hnone] at hw⟩
  · have hports : t.ports = s.ports.put p (s.ports.get p).tail :=
      runWord_ports (hstep.symm.trans h)
    refine ⟨fun q hq => ?others, fun hnone => by simp [hnone] at hhead, fun v hv => ?head⟩
    case others => rw [hports, Ports.get_put, if_neg hq]
    case head =>
      obtain ⟨⟨rest, hqueue⟩, _⟩ := State.enabledHead_eq_some.1 hv
      rw [hports, Ports.get_put, if_pos rfl, hqueue, List.tail_cons]

/-- Settles O38: `TX_SEND` reports one frame of 11 bytes, and no other command has the code of
`EV_TX_FRAME`. -/
theorem outboundStreamGrowsByWholeFrames : Obligations.OutboundStreamGrowsByWholeFrames := by
  intro i s t h
  constructor
  case left =>
    rintro len data rfl
    cases (exec_txSend len data s).symm.trans h
    refine ⟨_, ?_, (outboundBytes_append _ _).trans (congrArg _ (List.append_nil _))⟩
    simp
  case right =>
    intro hother
    obtain ⟨u, bodies, hacts, rfl⟩ := exec_effect h
    obtain ⟨_, hcodes, _⟩ := id hacts
    have hsilent : ∀ body ∈ bodies, body.code ≠ 0x05#8 := by
      intro body hmem hcode
      have hsend := (txFrame_code_mem_iff i.opcode).1 (hcode ▸ hcodes body hmem)
      obtain ⟨len, data, hi⟩ := opcode_eq_txSend hsend
      exact hother len data hi
    rw [hacts.events, outboundBytes_append, outboundBytes_tagged_of_code_ne _ hsilent,
      List.append_nil]

/-- Settles O52: every way to step appends, reset and waiting append nothing. -/
theorem eventStreamIsAppendOnlyAndTagged : Obligations.EventStreamIsAppendOnlyAndTagged := by
  refine ⟨fun s t h => ?_, fun p s t => stepPort_events⟩
  obtain ⟨_, hstep⟩ | ⟨_, _, hstep⟩ | ⟨_, _, _, hstep⟩ | ⟨_, _, p, _, hstep⟩ := step_cases s <;>
    have hnext := hstep.symm.trans h
  · cases hnext
  · cases hnext
    exact ⟨[], (List.append_nil _).symm⟩
  · cases hnext
    exact ⟨[], (List.append_nil _).symm⟩
  · obtain ⟨bodies, hevents⟩ := stepPort_events hnext
    exact ⟨_, hevents⟩

/-- Settles O53: a command acts the same under every tag. -/
theorem commandMeansTheSameOnEveryPort : Obligations.CommandMeansTheSameOnEveryPort := by
  intro i s t q h
  obtain ⟨u, bodies, hacts, rfl⟩ := exec_effect h
  obtain ⟨_, _, hexec⟩ := id hacts
  exact ⟨bodies, hacts.events, hexec q s.events⟩

/-- Settles O54: item by item, the changes that write it; the frame of every change for the rest. -/
theorem stateIsWrittenOnlyByItsCommands : Obligations.StateIsWrittenOnlyByItsCommands := by
  intro i s t h
  obtain ⟨u, bodies, ⟨hchange, _, _⟩, rfl⟩ := exec_effect h
  obtain ⟨hparams, hports, _, hport, hpin, hturn⟩ := hchange.frame
  have hconfig := hchange.slots_config
  refine ⟨?rxb, ?rxHead, ?rxCount, hconfig, ?slots, ?fxData, ?fxCur, ?fxAbort, hparams, hports,
    hpin, hport, hturn⟩
  all_goals cases hchange <;> simp

/-- Settles O55: the changes that write `fx_abort`, and `Change.slot_valid` for `slot_valid`. -/
theorem flagsChangeOnlyAsR38Says : Obligations.FlagsChangeOnlyAsR38Says := by
  intro i s t h
  obtain ⟨u, bodies, ⟨hchange, _, _⟩, rfl⟩ := exec_effect h
  refine ⟨?clear, ?set, ?configured, ?kept⟩
  case clear => cases hchange <;> simp_all
  case set => cases hchange <;> simp_all
  case configured =>
    intro j sl sl' hsl hsl' hinvalid hvalid
    obtain ⟨sl'', hsl'', hkept | ⟨_, hconfig⟩⟩ := hchange.slot_valid hsl
    · cases hsl'.symm.trans hsl''
      rw [hkept, hinvalid] at hvalid
      cases hvalid
    · exact hconfig
  case kept =>
    intro j sl hsl hvalid
    obtain ⟨sl', hsl', hkept | ⟨hset, _⟩⟩ := hchange.slot_valid hsl
    · exact ⟨sl', hsl', hkept.trans hvalid⟩
    · exact ⟨sl', hsl', hset⟩

/-- Settles O60: the codes are the constants of the model's tables, and each command acts within its
own. -/
theorem eventsHaveTheCodesOfR201AndR202 : Obligations.EventsHaveTheCodesOfR201AndR202 := by
  refine ⟨fun _ _ _ _ => rfl, fun _ _ _ _ _ _ => rfl, rfl, fun _ => rfl, fun _ => rfl,
    fun _ _ => rfl, fun _ _ _ => rfl, fun _ _ _ => rfl, fun _ _ _ => rfl, fun _ _ => rfl,
    ⟨rfl, rfl, rfl⟩, ⟨rfl, rfl, rfl⟩, ?emitted⟩
  case emitted =>
    intro i s t h codes
    have hcodes : codes = eventCodes i.opcode := by cases i <;> rfl
    obtain ⟨u, bodies, hacts, rfl⟩ := exec_effect h
    obtain ⟨_, hemitted, _⟩ := id hacts
    exact ⟨bodies, hacts.events, hcodes ▸ hemitted⟩

end Sys2Proof.Machine
end

section
/-! PROOFS. The invariant: reset establishes it, every change of a command keeps it, and what the
arbiter, the outside and the reports write does not bear on it (R24, R32, R36, R230). -/

namespace Sys2Proof.Machine

/-! ### What the invariant does not see -/

/-- The invariant is about the parameters, the ring, the slots and the cursor alone. -/
theorem State.Inv.congr {s t : State} (h : s.Inv) (hparams : t.params = s.params)
    (hrxb : t.rxb = s.rxb) (hhead : t.rxHead = s.rxHead) (hcount : t.rxCount = s.rxCount)
    (hslots : t.slots = s.slots) (hcur : t.fxCur = s.fxCur) : t.Inv where
  paramsValid := hparams ▸ h.paramsValid
  memoryWf := hrxb ▸ h.memoryWf
  countBound := hcount ▸ h.countBound
  ringWritten := by rw [hrxb, hhead, hcount]; exact h.ringWritten
  slotCount := by rw [hslots, hparams]; exact h.slotCount
  slotRange := by rw [hslots, hparams]; exact h.slotRange
  cursorBound := hcur ▸ h.cursorBound

/-! ### Reset -/

/-- The invariant holds after reset with legal parameters (R44). -/
theorem State.inv_resetWith {p : Params} (hp : p.valid = true) : (State.resetWith p).Inv where
  paramsValid := hp
  memoryWf := Memory.wf_nil
  countBound := Nat.zero_le _
  ringWritten := fun _ hk => absurd hk (Nat.not_lt_zero _)
  slotCount := State.resetWith_slots_length p
  slotRange := fun sl hsl hactive => by
    simp [State.resetWith_slots_inactive p sl hsl] at hactive
  cursorBound := Nat.zero_le _

/-- Reset establishes the invariant whatever the state was, if the parameters are legal (R230). -/
theorem State.inv_applyReset {s : State} (hp : s.params.valid = true) : s.applyReset.Inv :=
  (State.inv_resetWith hp).congr rfl rfl rfl rfl rfl rfl

/-! ### The ring -/

/-- An append below 256 bytes keeps the invariant: it writes the address of the new youngest
byte. -/
theorem State.Inv.ringAppend {s : State} (h : s.Inv) (b : Byte) (hroom : s.rxCount.toNat < 256) :
    (s.ringAppend b).Inv := by
  have hcount := s.ringAppend_count b hroom
  refine { h with memoryWf := ?memoryWf, countBound := by omega, ringWritten := ?ringWritten }
  case memoryWf => exact Memory.wf_write b (Nat.mod_lt _ (by decide)) h.memoryWf
  case ringWritten =>
    intro k hk
    rw [hcount] at hk
    have htail : s.ringTail % Config.rxCap = (s.rxHead.toNat + s.rxCount.toNat) % 256 :=
      Nat.mod_mod _ _
    have hread := Memory.read_write s.rxb (s.ringTail % Config.rxCap)
      ((s.rxHead.toNat + k) % 256) b
    rw [htail] at hread
    change ((s.rxb.write (s.ringTail % Config.rxCap) b).read
      ((s.rxHead.toNat + k) % 256)).isSome = true
    rw [htail, hread]
    split
    · rfl
    · next hother =>
      have hne : k ≠ s.rxCount.toNat := fun he => hother (by rw [he])
      exact h.ringWritten k (by omega)

/-- Dropping unconsumed bytes keeps the invariant: the others were unconsumed before. -/
theorem State.Inv.ringDrop {s : State} (h : s.Inv) {n : Nat} (hn : n ≤ s.rxCount.toNat) :
    (s.ringDrop n).Inv := by
  have hcount := s.ringDrop_count hn
  have hbound := h.countBound
  refine { h with countBound := by omega, ringWritten := ?ringWritten }
  case ringWritten =>
    intro k hk
    rw [hcount] at hk
    have haddr : ((s.ringDrop n).rxHead.toNat + k) % 256 = (s.rxHead.toNat + (n + k)) % 256 := by
      rw [s.ringDrop_head, Nat.mod_add_mod, Nat.add_assoc]
    rw [haddr]
    exact h.ringWritten (n + k) (by omega)

/-! ### The slots (R32) -/

/-- The range of R32 for one slot: an active slot's remaining time. -/
def Slot.inRange (p : Params) (sl : Slot) : Prop :=
  sl.active = true → -(p.overdueMs : Int) ≤ sl.rem.toInt ∧
    sl.rem.toInt ≤ max sl.tmo.toInt (p.backoffMinMs : Int)

/-- A slot whose remaining time is its timeout is in range. -/
theorem Slot.inRange_of_rem_eq_tmo (p : Params) {sl : Slot} (h : sl.rem = sl.tmo) :
    sl.inRange p := by
  intro hactive
  obtain ⟨_, hpos⟩ := sl.active_iff.1 hactive
  rw [h]
  omega

/-- A kick keeps the range (R175). -/
theorem Slot.inRange_kick {p : Params} {sl : Slot} (h : sl.inRange p) (node : BitVec 7)
    (fidx : BitVec 8) : (sl.kick node fidx).inRange p := by
  unfold Slot.kick
  split
  · exact Slot.inRange_of_rem_eq_tmo p rfl
  · exact h

/-- A tick keeps the range: it counts down as long as the slot is not overdue, and then reloads with
the backoff value (R178). -/
theorem Slot.inRange_tick {p : Params} (hp : p.valid = true) {sl : Slot} (h : sl.inRange p) :
    (sl.tick p).inRange p := by
  cases hactive : sl.active with
  | false =>
    rw [Slot.tick_of_inactive p hactive]
    exact h
  | true =>
    obtain ⟨r, htick, hr⟩ := Slot.tick_of_active hp hactive
    obtain ⟨hlow, hhigh⟩ := h hactive
    rw [htick]
    intro _
    simp only [hr]
    split <;> omega

/-- A table update slot by slot keeps the invariant when it keeps the range of each slot. -/
theorem State.Inv.setSlots_map {s : State} (h : s.Inv) {f : Slot → Slot}
    (hf : ∀ sl, sl.inRange s.params → (f sl).inRange s.params) :
    (s.setSlots (s.slots.map f)).Inv := by
  refine { h with slotCount := (List.length_map _).trans h.slotCount, slotRange := ?slotRange }
  case slotRange => exact List.forall_mem_map.2 fun sl hsl => hf sl (h.slotRange sl hsl)

/-- Configuring one slot keeps the invariant: the slot starts with its full timeout (R172). -/
theorem State.Inv.configure {s : State} (h : s.Inv) (j : Nat) (node : BitVec 7) (fidx : BitVec 8)
    (tmo : BitVec 32) : (s.setSlots (s.slots.set j ⟨true, node, fidx, tmo, tmo⟩)).Inv := by
  refine { h with slotCount := List.length_set.trans h.slotCount, slotRange := ?slotRange }
  case slotRange =>
    intro sl hsl
    obtain hold | rfl := List.mem_or_eq_of_mem_set hsl
    · exact h.slotRange sl hold
    · exact Slot.inRange_of_rem_eq_tmo s.params rfl

/-! ### Steps -/

/-- Every change a command can make keeps the invariant. -/
theorem Change.inv {i : Instr} {s u : State} (h : Change i s u) (hinv : s.Inv) : u.Inv := by
  cases h with
  | nothing => exact hinv
  | append b s hroom => exact hinv.ringAppend b hroom
  | drop n s hn => exact hinv.ringDrop hn
  | load data => exact { hinv with cursorBound := Nat.zero_le _ }
  | abort len => exact hinv.congr rfl rfl rfl rfl rfl rfl
  | advance len s hfits => exact { hinv with cursorBound := (cursor_toNat hfits).trans_le hfits }
  | config slot node fidx tmo => exact hinv.configure slot.toNat node fidx tmo
  | kick node fidx => exact hinv.setSlots_map fun sl hsl => sl.inRange_kick hsl node fidx
  | tick => exact hinv.setSlots_map fun sl hsl => sl.inRange_tick hinv.paramsValid hsl

/-- Every command keeps the invariant. -/
theorem exec_keeps_inv {i : Instr} {s t : State} (h : exec i s = .next t) (hinv : s.Inv) :
    t.Inv := by
  obtain ⟨u, bodies, ⟨hchange, _, _⟩, rfl⟩ := exec_effect h
  exact (hchange.inv hinv).congr rfl rfl rfl rfl rfl rfl

/-- Every arbiter step keeps the invariant (R206). -/
theorem stepPort_keeps_inv {p : Port} {s t : State} (h : stepPort p s = .next t) (hinv : s.Inv) :
    t.Inv := by
  have haccept : (s.accept p).Inv := hinv.congr rfl rfl rfl rfl rfl rfl
  obtain ⟨_, hstep⟩ | ⟨w, _, hstep⟩ := stepPort_cases p s
  · cases hstep.symm.trans h
    exact hinv
  · obtain ⟨i, _, hrun⟩ | ⟨c, _, hrun⟩ := runWord_cases w (s.accept p) <;>
      have hnext := (hstep.trans hrun).symm.trans h
    · exact exec_keeps_inv hnext haccept
    · cases hnext
      exact haccept.congr rfl rfl rfl rfl rfl rfl

/-- Every step keeps the invariant (R206, R230). -/
theorem step_keeps_inv {s t : State} (h : step s = .next t) (hinv : s.Inv) : t.Inv := by
  obtain ⟨_, hstep⟩ | ⟨hvalid, _, hstep⟩ | ⟨_, _, _, hstep⟩ | ⟨_, _, p, _, hstep⟩ := step_cases s
  all_goals
    have hnext := hstep.symm.trans h
  · cases hnext
  · cases hnext
    exact State.inv_applyReset hvalid
  · cases hnext
    exact hinv
  · exact stepPort_keeps_inv hnext hinv

/-- Every move of the machine or its surroundings keeps the invariant. -/
theorem Move.keeps_inv {s t : State} (h : Move s t) (hinv : s.Inv) : t.Inv := by
  cases h with
  | present p w => exact hinv.congr rfl rfl rfl rfl rfl rfl
  | assertReset => exact hinv.congr rfl rfl rfl rfl rfl rfl
  | applyReset => exact State.inv_applyReset hinv.paramsValid
  | pick _ _ _ hstep => exact stepPort_keeps_inv hstep hinv
  | step _ hstep => exact step_keeps_inv hstep hinv

/-! ### The obligations -/

/-- Settles O56: reset leaves an empty ring, no active slot and cursor 0. -/
theorem invariantHoldsAtReset : Obligations.InvariantHoldsAtReset :=
  ⟨fun _ => State.inv_resetWith, State.inv_resetWith (by decide)⟩

/-- Settles O57: a step is a reset, a wait, or a word's run, and a run is a change and reports. -/
theorem stepKeepsTheInvariant : Obligations.StepKeepsTheInvariant :=
  fun _ _ hinv h => step_keeps_inv h hinv

/-- Settles O58, by induction on the moves from reset. -/
theorem everyReachableStateHasTheInvariant : Obligations.EveryReachableStateHasTheInvariant := by
  intro p s hp hreach
  induction hreach with
  | start => exact State.inv_resetWith hp
  | move _ hmove ih => exact hmove.keeps_inv ih

end Sys2Proof.Machine
end

section
/-! PROOFS. The laws of the checksum: its two special values, every bit counts, and the order of the
words does not (R105). -/

namespace Sys2Proof.Machine

/-! ### Special values (R105(b)) -/

/-- The word sum is 0 exactly for zero bytes (R100). -/
theorem wordSum_eq_zero_iff (p : List Byte) : wordSum p = 0 ↔ ∀ b ∈ p, b = 0#8 := by
  have hbyte : ∀ b : Byte, b = 0#8 ↔ b.toNat = 0 := fun b => BitVec.toNat_inj.symm
  induction p using wordSum.induct with
  | case1 => simp [wordSum]
  | case2 lo => simp [wordSum_singleton, hbyte]
  | case3 lo hi rest ih =>
    have hrest : (∀ b ∈ rest, b = 0#8) ↔ wordSum rest = 0 := ih.symm
    rw [wordSum_cons_cons, List.forall_mem_cons, List.forall_mem_cons, hrest, hbyte, hbyte]
    omega

/-! ### Single bits (R105(d)) -/

/-- Setting a bit that is 0 adds its place value. -/
theorem toNat_xor_of_and_eq_zero {n : Nat} {b m : BitVec n} (h : b &&& m = 0#n) :
    (b ^^^ m).toNat = b.toNat + m.toNat := by
  have hor : b ^^^ m = b ||| m := by
    refine BitVec.eq_of_getLsbD_eq fun i _ => ?_
    have hdisjoint : (b.getLsbD i && m.getLsbD i) = false := by
      rw [← BitVec.getLsbD_and, h, BitVec.getLsbD_zero]
    rw [BitVec.getLsbD_xor, BitVec.getLsbD_or]
    cases hb : b.getLsbD i <;> simp_all
  rw [hor, ← BitVec.add_eq_or_of_and_eq_zero _ _ h, BitVec.toNat_add_of_and_eq_zero h]

/-- Flipping bit `k` of a byte adds or subtracts `2^k`. -/
theorem toNat_flip (b : Byte) {k : Nat} (hk : k < 8) :
    (b ^^^ (1#8 <<< k)).toNat = b.toNat + 2 ^ k ∨ b.toNat = (b ^^^ (1#8 <<< k)).toNat + 2 ^ k := by
  have hbit : (1#8 <<< k).toNat = 2 ^ k := by
    interval_cases k <;> rfl
  have hand : ∀ c : Byte, c.getLsbD k = false → c &&& (1#8 <<< k) = 0#8 := by
    intro c hc
    refine BitVec.eq_of_getLsbD_eq fun i hi => ?_
    by_cases hik : i = k
    · simp [hik, hc]
    · have hne : ¬i - k = 0 ∨ i < k := by omega
      rcases hne with h | h <;> simp [h]
  cases hset : b.getLsbD k with
  | false => exact .inl (hbit ▸ toNat_xor_of_and_eq_zero (hand b hset))
  | true =>
    right
    have hclear : (b ^^^ (1#8 <<< k)).getLsbD k = false := by simp [hset, hk]
    have hback := toNat_xor_of_and_eq_zero (hand _ hclear)
    rwa [BitVec.xor_assoc, BitVec.xor_self, BitVec.xor_zero, hbit] at hback

/-- Replacing byte `j` replaces its summand, which stands in the low or the high half of its word
(R100). -/
theorem wordSum_set {p : List Byte} {j : Nat} {b : Byte} (hb : p[j]? = some b) (c : Byte) :
    wordSum (p.set j c) + 2 ^ (8 * (j % 2)) * b.toNat =
      wordSum p + 2 ^ (8 * (j % 2)) * c.toNat := by
  induction p using wordSum.induct generalizing j with
  | case1 => simp at hb
  | case2 lo =>
    obtain rfl : j = 0 := by
      obtain ⟨hj, _⟩ := List.getElem?_eq_some_iff.1 hb
      rw [List.length_singleton] at hj
      omega
    cases hb
    simp [wordSum_singleton, Nat.add_comm]
  | case3 lo hi rest ih =>
    match j, hb with
    | 0, rfl =>
      rw [List.set_cons_zero, wordSum_cons_cons, wordSum_cons_cons, Nat.zero_mod]
      omega
    | 1, rfl =>
      rw [List.set_cons_succ, List.set_cons_zero, wordSum_cons_cons, wordSum_cons_cons, Nat.one_mod]
      omega
    | j + 2, hb =>
      have hrest := ih hb
      rw [List.set_cons_succ, List.set_cons_succ, wordSum_cons_cons, wordSum_cons_cons,
        Nat.add_mod_right]
      omega

/-- Flipping a bit changes the word sum by a power of two below 0xFFFF, so it changes its residue
(R102). -/
theorem wordSum_flip_mod_ne {p : List Byte} {j k : Nat} {b : Byte} (hb : p[j]? = some b)
    (hk : k < 8) : wordSum (p.set j (b ^^^ (1#8 <<< k))) % 0xFFFF ≠ wordSum p % 0xFFFF := by
  have hset := wordSum_set hb (b ^^^ (1#8 <<< k))
  have hflip := toNat_flip b hk
  obtain hj | hj := Nat.mod_two_eq_zero_or_one j <;> rw [hj] at hset <;>
    interval_cases k <;> omega

/-! ### Word order (R105(c)) -/

/-- The word sum of paired bytes is the sum of the words (R100). -/
theorem wordSum_flatMap (ws : List (Byte × Byte)) :
    wordSum (ws.flatMap fun w => [w.1, w.2]) = (ws.map fun w => (le16 w.1 w.2).toNat).sum := by
  induction ws with
  | nil => rfl
  | cons w rest ih => exact congrArg ((le16 w.1 w.2).toNat + ·) ih

/-- The checksum depends on the word sum alone (R100). -/
theorem inetCksum_congr {p q : List Byte} (h : wordSum p = wordSum q) :
    inetCksum p = inetCksum q := by
  rw [inetCksum, h, inetCksum]

/-! ### The obligations -/

/-- Settles O22: the folded sum is 0 only for the sum 0, and 0xFFFF for its other multiples. -/
theorem checksumZeroAndAllOnes : Obligations.ChecksumZeroAndAllOnes := by
  intro p hp
  have hbound := foldCarry_foldCarry_le (wordSum_lt_two_pow hp)
  have hmod := foldCarry_foldCarry_mod (wordSum p)
  have hzero := foldCarry_foldCarry_eq_zero_iff (n := wordSum p)
  rw [← wordSum_eq_zero_iff, ← BitVec.toNat_inj, ← BitVec.toNat_inj, inetCksum_toNat hp]
  simp only [BitVec.toNat_ofNat]
  omega

/-- Settles O23: equal checksums mean equal folded sums, hence equal residues of the word sums. -/
theorem checksumDetectsEveryBitFlip : Obligations.ChecksumDetectsEveryBitFlip := by
  intro p j k b hp hb hk heq
  have hp' : (p.set j (b ^^^ (1#8 <<< k))).length ≤ 131070 := by rwa [List.length_set]
  refine wordSum_flip_mod_ne hb hk ?_
  have hbound := foldCarry_foldCarry_le (wordSum_lt_two_pow hp)
  have hbound' := foldCarry_foldCarry_le (wordSum_lt_two_pow hp')
  have hnat := congrArg BitVec.toNat heq
  rw [inetCksum_toNat hp', inetCksum_toNat hp] at hnat
  rw [← foldCarry_foldCarry_mod, ← foldCarry_foldCarry_mod (wordSum p)]
  congr 1
  omega

/-- Settles O24: a sum does not depend on the order of its summands. -/
theorem checksumIgnoresWordOrder : Obligations.ChecksumIgnoresWordOrder := by
  intro ws ws' hperm
  refine inetCksum_congr ?_
  rw [wordSum_flatMap, wordSum_flatMap]
  exact (hperm.map _).sum_eq

end Sys2Proof.Machine
end

section
/-! PROOFS. The receive framer as a parser of byte strings: what `RX_STEP` makes of the unconsumed
bytes, and what a run of `RX_BYTE` and `RX_STEP` reports and leaves. Neither `rx_head` nor the
ring's addresses appear in it (R23, R41, R110 to R121). -/

namespace Sys2Proof.Machine

/-! ### The parser -/

/-- What `RX_STEP` reports, and the bytes it leaves unconsumed (R113 to R117). -/
def parseStep (bs : List Byte) : List EventBody × List Byte :=
  match firstSof bs with
  | none => ([], if 128 < bs.length then [] else bs)
  | some k =>
    if (bs.drop k).length < 15 then ([], bs.drop k)
    else if frameValid ((bs.drop k).take 15) then
      ([frameOkEvent ((bs.drop k).take 15)], bs.drop (k + 15))
    else
      ([frameBadEvent ((bs.drop k).take 15)], bs.drop (k + resyncLength ((bs.drop k).take 15)))

/-- Bytes without a SOF are discarded when there are more than 128, else kept (R114). -/
theorem parseStep_of_no_sof {bs : List Byte} (h : 0xFF#8 ∉ bs) :
    parseStep bs = ([], if 128 < bs.length then [] else bs) := by
  rw [parseStep, firstSof_eq_none.2 h]

/-- A SOF with fewer than 14 bytes behind it is aligned to the head (R115). -/
theorem parseStep_of_short {x y : List Byte} (hx : 0xFF#8 ∉ x) (hy : y.length < 14) :
    parseStep (x ++ 0xFF#8 :: y) = ([], 0xFF#8 :: y) := by
  have hshort : (0xFF#8 :: y).length < 15 := Nat.succ_lt_succ hy
  simp only [parseStep, firstSof_append hx, List.drop_left, if_pos hshort]

/-- A whole candidate is reported, and consumed up to its end or to the next SOF inside (R116,
R117). -/
theorem parseStep_of_candidate {x w : List Byte} (hx : 0xFF#8 ∉ x) (hw : w.length = 14)
    (y : List Byte) :
    parseStep (x ++ 0xFF#8 :: (w ++ y)) =
      if frameValid (0xFF#8 :: w) then ([frameOkEvent (0xFF#8 :: w)], y)
      else ([frameBadEvent (0xFF#8 :: w)],
        (0xFF#8 :: w).drop (resyncLength (0xFF#8 :: w)) ++ y) := by
  have hlen : (0xFF#8 :: w).length = 15 := congrArg (· + 1) hw
  have htake : (0xFF#8 :: (w ++ y)).take 15 = 0xFF#8 :: w :=
    List.take_left' (l₁ := 0xFF#8 :: w) hlen
  have hlong : ¬(0xFF#8 :: (w ++ y)).length < 15 := by
    rw [List.length_cons, List.length_append]
    omega
  have hresync : resyncLength (0xFF#8 :: w) ≤ (0xFF#8 :: w).length :=
    hlen.symm ▸ resyncLength_le 0xFF#8 hw
  have hdrop (n : Nat) :
      (x ++ 0xFF#8 :: (w ++ y)).drop (x.length + n) = ((0xFF#8 :: w) ++ y).drop n := by
    rw [← List.drop_drop, List.drop_left, List.cons_append]
  simp only [parseStep, firstSof_append hx, List.drop_left, if_neg hlong, htake, hdrop]
  rw [List.drop_left' hlen, List.drop_append_of_le_length hresync]

/-- Bytes before the first SOF do not matter once there is one (R113). -/
theorem parseStep_noise {x : List Byte} (hx : 0xFF#8 ∉ x) (y : List Byte) :
    parseStep (x ++ 0xFF#8 :: y) = parseStep (0xFF#8 :: y) := by
  have hnil : 0xFF#8 ∉ ([] : List Byte) := List.not_mem_nil
  obtain hshort | hlong := lt_or_ge y.length 14
  · exact (parseStep_of_short hx hshort).trans (parseStep_of_short hnil hshort).symm
  · have hw : (y.take 14).length = 14 := List.length_take_of_le hlong
    rw [← List.take_append_drop 14 y, parseStep_of_candidate hx hw]
    exact (parseStep_of_candidate hnil hw _).symm

/-- A step with nothing to report and nothing to consume waits (R114, R115). -/
def Waits (bs : List Byte) : Prop := parseStep bs = ([], bs)

/-- A byte string is bytes without a SOF, or starts its first candidate after some. -/
theorem sof_cases (bs : List Byte) :
    0xFF#8 ∉ bs ∨ (∃ x y, bs = x ++ 0xFF#8 :: y ∧ 0xFF#8 ∉ x ∧ y.length < 14) ∨
      ∃ x w y, bs = x ++ 0xFF#8 :: (w ++ y) ∧ 0xFF#8 ∉ x ∧ w.length = 14 := by
  by_cases hsof : 0xFF#8 ∈ bs
  case neg => exact .inl hsof
  case pos =>
    obtain ⟨x, y, rfl, hx⟩ := List.eq_append_cons_of_mem hsof
    obtain hshort | hlong := lt_or_ge y.length 14
    · exact .inr (.inl ⟨x, y, rfl, hx, hshort⟩)
    · exact .inr (.inr ⟨x, y.take 14, y.drop 14, by rw [List.take_append_drop], hx,
        List.length_take_of_le hlong⟩)

/-- Progress: a step waits, in one of the two wait states, or leaves fewer bytes, in none of them
(R121). -/
theorem parseStep_progress (bs : List Byte) :
    (Waits bs ∧ (0xFF#8 ∉ bs ∧ bs.length ≤ 128 ∨ bs.head? = some 0xFF#8 ∧ bs.length < 15)) ∨
    ((parseStep bs).2.length < bs.length ∧
      ¬(0xFF#8 ∉ bs ∧ bs.length ≤ 128 ∨ bs.head? = some 0xFF#8 ∧ bs.length < 15)) := by
  obtain hsof | ⟨x, y, rfl, hx, hy⟩ | ⟨x, w, y, rfl, hx, hw⟩ := sof_cases bs
  · rw [Waits, parseStep_of_no_sof hsof]
    by_cases hmany : 128 < bs.length
    · right
      have hhead : bs.head? ≠ some 0xFF#8 := fun h => hsof (List.mem_of_mem_head? h)
      rw [if_pos hmany]
      refine ⟨Nat.zero_lt_of_lt hmany, ?_⟩
      rintro (⟨_, hfew⟩ | ⟨hfirst, _⟩)
      · omega
      · exact hhead hfirst
    · left
      rw [if_neg hmany]
      exact ⟨rfl, .inl ⟨hsof, Nat.not_lt.1 hmany⟩⟩
  · rw [Waits, parseStep_of_short hx hy]
    cases x with
    | nil => exact .inl ⟨rfl, .inr ⟨rfl, Nat.succ_lt_succ hy⟩⟩
    | cons b x =>
      have hb : b ≠ 0xFF#8 := fun h => hx (h ▸ List.mem_cons_self)
      right
      simp [hb]
  · right
    rw [parseStep_of_candidate hx hw]
    have hresync := resyncLength_cons 0xFF#8 hw
    constructor
    · split <;> simp <;> omega
    · simp
      omega

/-- What waits is exactly the two wait states (R121). -/
theorem waits_iff (bs : List Byte) :
    Waits bs ↔ 0xFF#8 ∉ bs ∧ bs.length ≤ 128 ∨ bs.head? = some 0xFF#8 ∧ bs.length < 15 := by
  obtain ⟨hwaits, hstate⟩ | ⟨hless, hstate⟩ := parseStep_progress bs
  · exact iff_of_true hwaits hstate
  · refine iff_of_false (fun hwaits => ?_) hstate
    rw [hwaits] at hless
    exact lt_irrefl _ hless

/-- A step waits or leaves fewer bytes (R121). -/
theorem waits_or_shrinks (bs : List Byte) : Waits bs ∨ (parseStep bs).2.length < bs.length :=
  (parseStep_progress bs).imp And.left And.left

/-! ### Runs of the parser -/

/-- The commands of the link and the parser: `RX_BYTE` and `RX_STEP`. -/
def IsRx (i : Instr) : Prop := i = .rxStep ∨ ∃ b, i = .rxByte b

/-- What a run of `RX_BYTE` and `RX_STEP` reports and leaves unconsumed, from some unconsumed
bytes. -/
def rxRun : List Instr → List Byte → List EventBody × List Byte
  | [], bs => ([], bs)
  | .rxByte b :: rest, bs => rxRun rest (bs ++ [b])
  | .rxStep :: rest, bs =>
    ((parseStep bs).1 ++ (rxRun rest (parseStep bs).2).1, (rxRun rest (parseStep bs).2).2)
  | _ :: rest, bs => rxRun rest bs

/-- Two runs, one after the other. -/
theorem rxRun_append (l l' : List Instr) (bs : List Byte) :
    rxRun (l ++ l') bs =
      ((rxRun l bs).1 ++ (rxRun l' (rxRun l bs).2).1, (rxRun l' (rxRun l bs).2).2) := by
  induction l generalizing bs with
  | nil => rfl
  | cons i rest ih =>
    cases i with
    | rxStep =>
      rw [List.cons_append, rxRun, rxRun, ih]
      simp only [List.append_assoc]
    | _ => exact ih _

/-- Arriving bytes join the unconsumed ones and report nothing (R110). -/
theorem rxRun_bytes (fed bs : List Byte) : rxRun (fed.map .rxByte) bs = ([], bs ++ fed) := by
  induction fed generalizing bs with
  | nil => rw [List.map_nil, rxRun, List.append_nil]
  | cons b rest ih => rw [List.map_cons, rxRun, ih, List.append_assoc, List.singleton_append]

/-- Steps in a wait state report nothing and change nothing (R121). -/
theorem rxRun_of_waits {bs : List Byte} (h : Waits bs) (n : Nat) :
    rxRun (List.replicate n .rxStep) bs = ([], bs) := by
  induction n with
  | zero => rfl
  | succ n ih => rw [List.replicate_succ, rxRun, h, ih, List.append_nil]

/-- As many steps as there are bytes reach a wait state (R121). -/
theorem waits_after_steps {n : Nat} {bs : List Byte} (h : bs.length ≤ n) :
    Waits (rxRun (List.replicate n .rxStep) bs).2 := by
  induction n generalizing bs with
  | zero =>
    obtain rfl := List.eq_nil_of_length_eq_zero (Nat.le_zero.1 h)
    exact (waits_iff _).2 (.inl ⟨List.not_mem_nil, Nat.zero_le _⟩)
  | succ n ih =>
    obtain hwaits | hshrinks := waits_or_shrinks bs
    · rw [rxRun_of_waits hwaits]
      exact hwaits
    · exact ih (by omega)

/-! ### The machine runs the parser -/

/-- From `s`, the reports `r.1` were made and the bytes `r.2` left unconsumed. -/
def Leaves (s t : State) (r : List EventBody × List Byte) : Prop :=
  t.events = s.events ++ tagged s.cmdPort r.1 ∧ t.unconsumed = r.2 ∧ t.cmdPort = s.cmdPort

/-- What two runs leave, one after the other. -/
theorem Leaves.trans {s u t : State} {r r' : List EventBody × List Byte} (h : Leaves s u r)
    (h' : Leaves u t r') : Leaves s t (r.1 ++ r'.1, r'.2) := by
  obtain ⟨hevents, _, hport⟩ := h
  obtain ⟨hevents', hbytes', hport'⟩ := h'
  refine ⟨?_, hbytes', hport'.trans hport⟩
  rw [hevents', hevents, hport, tagged_append, List.append_assoc]

/-- Dropping nothing changes nothing (R11). -/
theorem State.ringDrop_zero (s : State) : s.ringDrop 0 = s := by
  simp [State.ringDrop]

/-- Reports and a drop of the oldest bytes leave what the parser leaves, when it says so; a drop
that leaves everything changes nothing. -/
theorem leaves_of_drop {s : State} {bodies : List EventBody} {n : Nat} (hn : n ≤ s.rxCount.toNat)
    (hparse : parseStep s.unconsumed = (bodies, s.unconsumed.drop n)) :
    Leaves s ((s.emitAll bodies).ringDrop n) (parseStep s.unconsumed) ∧
      (Waits s.unconsumed → (s.emitAll bodies).ringDrop n = s) := by
  constructor
  · rw [hparse]
    exact ⟨rfl, State.unconsumed_ringDrop (s.emitAll bodies) hn, rfl⟩
  · intro hwaits
    obtain ⟨rfl, hall⟩ := Prod.mk.inj (hparse.symm.trans hwaits)
    have hlen := congrArg List.length hall
    rw [List.length_drop, s.unconsumed_length] at hlen
    obtain rfl : n = 0 := by omega
    rw [State.emitAll_nil, State.ringDrop_zero]

/-- `RX_STEP` is the parser's step on the unconsumed bytes, and a waiting step changes nothing at
all (R112 to R117, R121). -/
theorem exec_rxStep_parse (s : State) :
    ∃ t, exec .rxStep s = .next t ∧ Leaves s t (parseStep s.unconsumed) ∧
      (Waits s.unconsumed → t = s) := by
  obtain hsof | ⟨x, y, hs, hx, hy⟩ | ⟨x, w, y, hs, hx, hw⟩ := sof_cases s.unconsumed
  · have hstep := execRxStep_of_no_sof hsof
    have hparse := parseStep_of_no_sof hsof
    rw [s.unconsumed_length] at hparse
    split_ifs at hstep hparse with hmany
    · have hall : s.unconsumed.drop s.rxCount.toNat = [] := by
        rw [← s.unconsumed_length, List.drop_length]
      have hleaves := leaves_of_drop le_rfl (hparse.trans (congrArg _ hall.symm))
      rw [State.emitAll_nil] at hleaves
      exact ⟨_, hstep, hleaves⟩
    · refine ⟨_, hstep, ?_, fun _ => rfl⟩
      rw [hparse]
      exact ⟨(List.append_nil _).symm, rfl, rfl⟩
  · have hcount := State.rxCount_of_unconsumed hs
    rw [List.length_append] at hcount
    have hparse : parseStep s.unconsumed = ([], s.unconsumed.drop x.length) := by
      rw [hs, parseStep_of_short hx hy, List.drop_left]
    have hleaves := leaves_of_drop (by omega) hparse
    rw [State.emitAll_nil] at hleaves
    exact ⟨_, (execRxStep_of_sof hs hx).trans (if_pos hy), hleaves⟩
  · have hcount := State.rxCount_of_unconsumed hs
    rw [List.length_append, List.length_cons, List.length_append] at hcount
    have hlen : (0xFF#8 :: w).length = 15 := congrArg (· + 1) hw
    have hresync := resyncLength_le 0xFF#8 hw
    have hparse := parseStep_of_candidate hx hw y
    have hstep := execRxStep_of_candidate hs hx hw
    have hdrop (n : Nat) : s.unconsumed.drop (x.length + n) = ((0xFF#8 :: w) ++ y).drop n := by
      rw [hs, ← List.drop_drop, List.drop_left, List.cons_append]
    rw [← hs] at hparse
    split_ifs at hstep hparse with hvalid
    · refine ⟨_, hstep, leaves_of_drop (bodies := [_]) (by omega) (hparse.trans ?_)⟩
      rw [hdrop, List.drop_left' hlen]
    · refine ⟨_, hstep, leaves_of_drop (bodies := [_]) (by omega) (hparse.trans ?_)⟩
      rw [hdrop, List.drop_append_of_le_length (hlen.symm ▸ hresync)]

/-- `RX_STEP` leaves no more unconsumed bytes than there were (R121). -/
theorem rxCount_le_of_exec_rxStep {s t : State} (h : exec .rxStep s = .next t) :
    t.rxCount.toNat ≤ s.rxCount.toNat := by
  obtain ⟨u, hstep, ⟨_, hbytes, _⟩, _⟩ := exec_rxStep_parse s
  cases hstep.symm.trans h
  rw [State.rxCount_of_unconsumed hbytes, ← s.unconsumed_length]
  obtain hwaits | hshrinks := waits_or_shrinks s.unconsumed
  · rw [hwaits]
  · exact hshrinks.le

/-- An accepted `RX_BYTE` joins its byte to the unconsumed ones (R110). -/
theorem exec_rxByte_of_room {s : State} (b : BitVec 8) (h : s.rxCount.toNat < 256) :
    exec (.rxByte b) s = .next (s.ringAppend b) :=
  if_pos (s.rxReady_iff.2 h)

/-- A run of `RX_BYTE` and `RX_STEP` that meets no full ring is the parser's run; the ring stays
within its capacity (R24, R123). -/
theorem execAll_rxRun {l : List Instr} (hl : ∀ i ∈ l, IsRx i) {s : State} (hfull : NeverFull l s) :
    ∃ t, execAll l s = .next t ∧ Leaves s t (rxRun l s.unconsumed) ∧
      (s.rxCount.toNat ≤ 256 → t.rxCount.toNat ≤ 256) := by
  induction l generalizing s with
  | nil => exact ⟨s, rfl, ⟨(List.append_nil _).symm, rfl, rfl⟩, id⟩
  | cons i rest ih =>
    obtain ⟨hi, hrest⟩ := List.forall_mem_cons.1 hl
    obtain ⟨hroom, hnext⟩ := hfull
    obtain rfl | ⟨b, rfl⟩ := hi
    · obtain ⟨u, hstep, hleaves, _⟩ := exec_rxStep_parse s
      obtain ⟨t, hrun, hleaves', hbound⟩ := ih hrest (hnext u hstep)
      obtain ⟨_, hbytes, _⟩ := id hleaves
      exact ⟨t, (execAll_cons_of_next hstep rest).trans hrun, hleaves.trans (hbytes ▸ hleaves'),
        fun hs => hbound ((rxCount_le_of_exec_rxStep hstep).trans hs)⟩
    · have hs := hroom b rfl
      have hstep := exec_rxByte_of_room b hs
      obtain ⟨t, hrun, hleaves, hbound⟩ := ih hrest (hnext _ hstep)
      rw [s.unconsumed_ringAppend b hs] at hleaves
      refine ⟨t, (execAll_cons_of_next hstep rest).trans hrun, hleaves, fun _ => hbound ?_⟩
      rw [s.ringAppend_count b hs]
      exact hs

/-! ### Runs that meet no full ring -/

/-- Steps meet no full ring. -/
theorem neverFull_steps (n : Nat) (s : State) : NeverFull (List.replicate n .rxStep) s := by
  induction n generalizing s with
  | zero => trivial
  | succ n ih => exact ⟨fun _ h => (nomatch h), fun t _ => ih t⟩

/-- Steps behind a run that meets no full ring meet none. -/
theorem NeverFull.append_steps {l : List Instr} {s : State} (h : NeverFull l s) (n : Nat) :
    NeverFull (l ++ List.replicate n .rxStep) s := by
  induction l generalizing s with
  | nil => exact neverFull_steps n s
  | cons i rest ih =>
    obtain ⟨hroom, hnext⟩ := h
    exact ⟨hroom, fun t ht => ih (hnext t ht)⟩

/-- A run meets no full ring when all its bytes fit into the ring together. -/
theorem neverFull_of_fits {l : List Instr} (hl : ∀ i ∈ l, IsRx i) {s : State}
    (h : s.rxCount.toNat + (linkBytes l).length ≤ 256) : NeverFull l s := by
  induction l generalizing s with
  | nil => trivial
  | cons i rest ih =>
    obtain ⟨hi, hrest⟩ := List.forall_mem_cons.1 hl
    obtain rfl | ⟨b, rfl⟩ := hi
    · refine ⟨fun _ h => (nomatch h), fun t ht => ih hrest ?_⟩
      exact (Nat.add_le_add_right (rxCount_le_of_exec_rxStep ht) _).trans h
    · rw [linkBytes, List.length_cons] at h
      have hs : s.rxCount.toNat < 256 := by omega
      refine ⟨fun _ _ => hs, fun t ht => ih hrest ?_⟩
      cases (exec_rxByte_of_room b hs).symm.trans ht
      rw [s.ringAppend_count b hs]
      omega

end Sys2Proof.Machine
end

section
/-! PROOFS. What the receive framer guarantees, on byte strings: a run's reports are those of
draining all its bytes at once, a valid frame behind any bytes is reached, and a split frame is
delivered once (R110, R111, R121 to R123, R145). -/

namespace Sys2Proof.Machine

/-! ### Draining -/

/-- The reports of steps from some unconsumed bytes on until they wait (R121). -/
def drain (bs : List Byte) : List EventBody :=
  if _h : (parseStep bs).2.length < bs.length then
    (parseStep bs).1 ++ drain (parseStep bs).2
  else []
termination_by bs.length

/-- Nothing is reported any more in a wait state. -/
theorem drain_of_waits {bs : List Byte} (h : Waits bs) : drain bs = [] := by
  rw [drain, h]
  exact dif_neg (lt_irrefl _)

/-- Draining starts with one step. -/
theorem drain_parseStep (bs : List Byte) :
    drain bs = (parseStep bs).1 ++ drain (parseStep bs).2 := by
  obtain hwaits | hshrinks := waits_or_shrinks bs
  · rw [hwaits, List.nil_append]
  · conv_lhs => rw [drain, dif_pos hshrinks]

/-- Bytes without a SOF report nothing and do not change what those behind them report (R113,
R114). -/
theorem drain_noise {x : List Byte} (hx : 0xFF#8 ∉ x) (z : List Byte) :
    drain (x ++ z) = drain z := by
  have hnil : drain ([] : List Byte) = [] :=
    drain_of_waits ((waits_iff []).2 (.inl ⟨List.not_mem_nil, Nat.zero_le _⟩))
  have hquiet {u : List Byte} (hu : 0xFF#8 ∉ u) : drain u = [] := by
    obtain hwaits | hshrinks := waits_or_shrinks u
    · exact drain_of_waits hwaits
    · have hparse := parseStep_of_no_sof hu
      split_ifs at hparse with hmany
      · rw [drain_parseStep, hparse, hnil, List.append_nil]
      · exact drain_of_waits hparse
  by_cases hz : 0xFF#8 ∈ z
  case neg =>
    have hboth : 0xFF#8 ∉ x ++ z := fun h => (List.mem_append.1 h).elim hx hz
    rw [hquiet hboth, hquiet hz]
  case pos =>
    obtain ⟨u, y, rfl, hu⟩ := List.eq_append_cons_of_mem hz
    have hxu : 0xFF#8 ∉ x ++ u := fun h => (List.mem_append.1 h).elim hx hu
    rw [← List.append_assoc, drain_parseStep, parseStep_noise hxu,
      drain_parseStep (u ++ 0xFF#8 :: y), parseStep_noise hu]

/-- A step before further bytes arrive does not change what is reported in the end (R123). -/
theorem drain_append (bs z : List Byte) :
    drain (bs ++ z) = (parseStep bs).1 ++ drain ((parseStep bs).2 ++ z) := by
  obtain hsof | ⟨x, y, rfl, hx, hy⟩ | ⟨x, w, y, rfl, hx, hw⟩ := sof_cases bs
  · rw [parseStep_of_no_sof hsof, List.nil_append]
    split_ifs
    · exact drain_noise hsof z
    · rfl
  · rw [parseStep_of_short hx hy, List.append_assoc, drain_noise hx, List.nil_append]
  · have hbehind := parseStep_of_candidate hx hw (y ++ z)
    rw [← List.append_assoc, ← List.cons_append, ← List.append_assoc] at hbehind
    rw [drain_parseStep, hbehind, parseStep_of_candidate hx hw]
    split_ifs
    · rfl
    · rw [List.append_assoc]

/-- What a run reports and what draining its rest would report is what draining all its bytes
reports (R123). -/
theorem rxRun_drain {l : List Instr} (hl : ∀ i ∈ l, IsRx i) (bs : List Byte) :
    (rxRun l bs).1 ++ drain (rxRun l bs).2 = drain (bs ++ linkBytes l) := by
  induction l generalizing bs with
  | nil => rw [rxRun, linkBytes, List.nil_append, List.append_nil]
  | cons i rest ih =>
    obtain ⟨rfl | ⟨b, rfl⟩, hrest⟩ := List.forall_mem_cons.1 hl
    · rw [rxRun, List.append_assoc, ih hrest]
      exact (drain_append bs (linkBytes rest)).symm
    · rw [rxRun, ih hrest, linkBytes, List.append_assoc, List.singleton_append]

/-- Steps deliver no bytes (R51). -/
theorem linkBytes_steps (n : Nat) : linkBytes (List.replicate n .rxStep) = [] := by
  induction n with
  | zero => rfl
  | succ n ih => exact ih

/-- Steps are commands of the parser. -/
theorem isRx_of_mem_steps (n : Nat) : ∀ i ∈ List.replicate n Instr.rxStep, IsRx i :=
  fun _ hi => .inl (List.eq_of_mem_replicate hi)

/-- Once enough steps follow, a run has reported what draining all its bytes reports (R123). -/
theorem rxRun_append_steps {l : List Instr} (hl : ∀ i ∈ l, IsRx i) {bs : List Byte} {n : Nat}
    (hn : (rxRun l bs).2.length ≤ n) :
    (rxRun (l ++ List.replicate n .rxStep) bs).1 = drain (bs ++ linkBytes l) := by
  have hrest := rxRun_drain (isRx_of_mem_steps n) (rxRun l bs).2
  rw [drain_of_waits (waits_after_steps hn), List.append_nil, linkBytes_steps,
    List.append_nil] at hrest
  rw [rxRun_append, hrest, rxRun_drain hl]

/-! ### A valid frame behind any bytes (R122) -/

/-- A byte string whose first candidate validates is delivered from its first SOF on (R116). -/
theorem parseStep_of_valid {x w : List Byte} (hx : 0xFF#8 ∉ x) (hw : w.length = 14)
    (hvalid : frameValid (0xFF#8 :: w) = true) (y : List Byte) :
    parseStep (x ++ 0xFF#8 :: (w ++ y)) = ([frameOkEvent (0xFF#8 :: w)], y) := by
  rw [parseStep_of_candidate hx hw, if_pos hvalid]

/-- A mismatch stops at the latest at the next SOF of its window (R117). -/
theorem resyncLength_le_of_sof {u v : List Byte} (hw : (u ++ 0xFF#8 :: v).length = 14) (b : Byte) :
    resyncLength (b :: (u ++ 0xFF#8 :: v)) ≤ u.length + 1 := by
  rw [resyncLength_cons b hw]
  refine Nat.succ_le_succ ?_
  clear hw
  induction u with
  | nil => exact Nat.le_of_eq rfl
  | cons c rest ih =>
    rw [List.cons_append, List.takeWhile_cons]
    split
    · exact Nat.succ_le_succ ih
    · exact Nat.zero_le _

/-- The step from `bs` delivers a frame that ends inside the frame `0xFF :: w` in front of `y`, the
frame itself if it ends where that one ends (R122). -/
def DeliversInto (w y bs : List Byte) : Prop :=
  ∃ e rest, parseStep bs = ([e], rest) ∧ e.code = 0x01#8 ∧ y.length ≤ rest.length ∧
    rest.length < y.length + 15 ∧ (rest.length = y.length → e = frameOkEvent (0xFF#8 :: w))

/-- One step on bytes before a valid frame: it delivers into the frame, or consumes only bytes
before it (R122). -/
theorem parseStep_before_valid {w : List Byte} (hw : w.length = 14)
    (hvalid : frameValid (0xFF#8 :: w) = true) (x y : List Byte) :
    DeliversInto w y (x ++ 0xFF#8 :: (w ++ y)) ∨
      ∃ x', x'.length < x.length ∧
        (parseStep (x ++ 0xFF#8 :: (w ++ y))).2 = x' ++ 0xFF#8 :: (w ++ y) := by
  by_cases hsof : 0xFF#8 ∈ x
  case neg =>
    exact .inl ⟨_, _, parseStep_of_valid hsof hw hvalid y, rfl, le_rfl, by omega, fun _ => rfl⟩
  case pos =>
    obtain ⟨x₁, x₂, rfl, hx₁⟩ := List.eq_append_cons_of_mem hsof
    obtain hlong | hshort := le_or_gt 14 x₂.length
    · -- the candidate ends before the frame
      right
      have hu : (x₂.take 14).length = 14 := List.length_take_of_le hlong
      have hrest : (x₂.drop 14).length = x₂.length - 14 := List.length_drop
      have hresync := resyncLength_cons 0xFF#8 hu
      have hparse := parseStep_of_candidate hx₁ hu (x₂.drop 14 ++ 0xFF#8 :: (w ++ y))
      rw [← List.append_assoc, List.take_append_drop, ← List.cons_append, ← List.append_assoc]
        at hparse
      rw [hparse]
      split_ifs
      · refine ⟨x₂.drop 14, ?_, rfl⟩
        simp
        omega
      · refine ⟨(0xFF#8 :: x₂.take 14).drop (resyncLength (0xFF#8 :: x₂.take 14)) ++ x₂.drop 14,
          ?_, (List.append_assoc ..).symm⟩
        simp only [List.length_append, List.length_drop, List.length_cons, hu]
        omega
    · -- the candidate reaches into the frame
      obtain ⟨w₁, w₂, rfl, hw₁⟩ : ∃ w₁ w₂, w = w₁ ++ w₂ ∧ w₁.length = 13 - x₂.length :=
        ⟨_, _, (List.take_append_drop (13 - x₂.length) w).symm, List.length_take_of_le (by omega)⟩
      rw [List.length_append] at hw
      have hu : (x₂ ++ 0xFF#8 :: w₁).length = 14 := by
        rw [List.length_append, List.length_cons]
        omega
      have hsplit : x₁ ++ 0xFF#8 :: x₂ ++ 0xFF#8 :: (w₁ ++ w₂ ++ y) =
          x₁ ++ 0xFF#8 :: ((x₂ ++ 0xFF#8 :: w₁) ++ (w₂ ++ y)) := by
        simp
      have hresync := resyncLength_le_of_sof hu 0xFF#8
      have hmoves := resyncLength_cons 0xFF#8 hu
      have hparse := parseStep_of_candidate hx₁ hu (w₂ ++ y)
      rw [← hsplit] at hparse
      split_ifs at hparse
      · refine .inl ⟨_, _, hparse, rfl, ?_, ?_, fun heq => ?_⟩ <;>
          rw [List.length_append] at * <;> omega
      · right
        rw [hparse]
        refine ⟨(0xFF#8 :: x₂).drop (resyncLength (0xFF#8 :: (x₂ ++ 0xFF#8 :: w₁))), ?_, ?_⟩
        · simp only [List.length_append, List.length_drop, List.length_cons]
          omega
        · rw [← List.cons_append, List.drop_append_of_le_length hresync]
          simp

/-- Behind any bytes `x`, after at most as many steps as `x` has bytes, a step delivers into the
valid frame, and nothing of the frame is consumed before (R122). -/
theorem steps_reach_valid {w : List Byte} (hw : w.length = 14)
    (hvalid : frameValid (0xFF#8 :: w) = true) (y : List Byte) :
    ∀ (m : Nat) (x : List Byte), x.length ≤ m → ∃ n x', n ≤ x.length ∧
      (rxRun (List.replicate n .rxStep) (x ++ 0xFF#8 :: (w ++ y))).2 = x' ++ 0xFF#8 :: (w ++ y) ∧
      DeliversInto w y (x' ++ 0xFF#8 :: (w ++ y)) := by
  intro m
  induction m with
  | zero =>
    intro x hx
    obtain hnow | ⟨x', hless, _⟩ := parseStep_before_valid hw hvalid x y
    · exact ⟨0, x, Nat.zero_le _, rfl, hnow⟩
    · omega
  | succ m ih =>
    intro x hx
    obtain hnow | ⟨x', hless, hparse⟩ := parseStep_before_valid hw hvalid x y
    · exact ⟨0, x, Nat.zero_le _, rfl, hnow⟩
    · obtain ⟨n, x'', hn, hrun, hlater⟩ := ih x' (by omega)
      exact ⟨n + 1, x'', by omega, by rw [List.replicate_succ, rxRun, hparse, hrun], hlater⟩

/-! ### Frames from an empty ring -/

/-- The bytes of two runs, one after the other (R51). -/
theorem linkBytes_append (l l' : List Instr) :
    linkBytes (l ++ l') = linkBytes l ++ linkBytes l' := by
  induction l with
  | nil => rfl
  | cons i rest ih =>
    cases i with
    | rxByte b => exact congrArg (b :: ·) ih
    | _ => exact ih

/-- The bytes of arriving bytes (R51). -/
theorem linkBytes_bytes (fed : List Byte) : linkBytes (fed.map .rxByte) = fed := by
  induction fed with
  | nil => rfl
  | cons b rest ih => exact congrArg (b :: ·) ih

/-- Arriving bytes are commands of the link. -/
theorem isRx_of_mem_bytes (fed : List Byte) : ∀ i ∈ fed.map Instr.rxByte, IsRx i :=
  List.forall_mem_map.2 fun b _ => .inr ⟨b, rfl⟩

/-- From an empty ring, a run whose bytes fit into the ring together is the parser's run from no
bytes. -/
theorem execAll_rxRun_of_empty {l : List Instr} (hl : ∀ i ∈ l, IsRx i) {s : State}
    (hs : s.rxCount = 0#9) (h : (linkBytes l).length ≤ 256) :
    ∃ t, execAll l s = .next t ∧ Leaves s t (rxRun l []) := by
  have hcount : s.rxCount.toNat = 0 := congrArg BitVec.toNat hs
  have hempty : s.unconsumed = [] :=
    List.eq_nil_of_length_eq_zero (s.unconsumed_length.trans hcount)
  obtain ⟨t, hrun, hleaves, _⟩ := execAll_rxRun hl (neverFull_of_fits hl (s := s) (by omega))
  exact ⟨t, hrun, hempty ▸ hleaves⟩

/-- Fewer than 15 bytes that start with a SOF, if there are any, wait (R115). -/
theorem waits_of_prefix {w : List Byte} {n : Nat} (hn : n < 15) :
    Waits ((0xFF#8 :: w).take n) := by
  refine (waits_iff _).2 ?_
  cases n with
  | zero => exact .inl ⟨List.not_mem_nil, Nat.zero_le _⟩
  | succ n => exact .inr ⟨rfl, by rw [List.length_take]; omega⟩

/-- A valid frame, cut anywhere and parsed after each part, is reported once (R123). -/
theorem rxRun_split_frame {w : List Byte} (hw : w.length = 14)
    (hvalid : frameValid (0xFF#8 :: w) = true) (n : Nat) :
    rxRun (((0xFF#8 :: w).take n).map .rxByte ++ [.rxStep] ++ ((0xFF#8 :: w).drop n).map .rxByte ++
      [.rxStep]) [] = ([frameOkEvent (0xFF#8 :: w)], []) := by
  have hlen : (0xFF#8 :: w).length = 15 := congrArg (· + 1) hw
  have hframe : parseStep (0xFF#8 :: w) = ([frameOkEvent (0xFF#8 :: w)], []) := by
    simpa using parseStep_of_valid (x := []) List.not_mem_nil hw hvalid []
  have hnone : Waits [] := (waits_iff []).2 (.inl ⟨List.not_mem_nil, Nat.zero_le _⟩)
  have hone (bs : List Byte) : rxRun [.rxStep] bs = parseStep bs := by
    rw [rxRun, rxRun, List.append_nil]
  simp only [rxRun_append, rxRun_bytes, hone, List.nil_append]
  obtain hcut | hwhole := lt_or_ge n 15
  · rw [waits_of_prefix hcut, List.take_append_drop, hframe]
    rfl
  · rw [List.take_of_length_le (by omega), List.drop_of_length_le (by omega), hframe]
    exact congrArg (fun r => ([frameOkEvent (0xFF#8 :: w)] ++ r.1, r.2)) hnone

/-! ### The obligations -/

/-- Settles O25: the accepted `RX_BYTE` is `State.ringAppend`, which writes one address. -/
theorem rxByteAppendsOneByte : Obligations.RxByteAppendsOneByte := by
  intro s b hroom
  have hread := s.rxbRead_rxbWrite s.ringTail
  have htail : s.ringTail % 256 = (s.rxHead.toNat + s.rxCount.toNat) % 256 := Nat.mod_mod _ _
  refine ⟨_, exec_rxByte_of_room b hroom, s.unconsumed_ringAppend b hroom,
    s.ringAppend_count b hroom, ?written, ?others, rfl⟩
  case written => exact (hread _ b).trans (if_pos ((Nat.mod_mod _ _).trans htail.symm))
  case others => exact fun a ha => (hread a b).trans (if_neg (htail ▸ ha))

/-- Settles O26: the two policies at a count of 256, in the meaning and at the head of a port. -/
theorem rxByteAtAFullRing : Obligations.RxByteAtAFullRing := by
  intro s b hfull
  have hready : ¬s.rxReady = true := fun h => by
    have := s.rxReady_iff.1 h
    omega
  have hheld := s.held_iff (encode (.rxByte b))
  constructor
  case left =>
    intro hhold
    refine ⟨(if_neg hready).trans (by rw [hhold]), fun p rest hqueue => ?_⟩
    have hhead : s.enabledHead p = none := by
      rw [State.enabledHead_of_cons hqueue,
        if_pos (hheld.2 ⟨⟨b, decode_encode _⟩, hfull.ge, hhold⟩)]
    exact ⟨hhead, stepPort_of_no_enabledHead hhead⟩
  case right =>
    intro hdrop
    refine ⟨(if_neg hready).trans (by rw [hdrop]; rfl), fun p rest hqueue => ?_⟩
    rw [State.enabledHead_of_cons hqueue, if_neg]
    intro h
    obtain ⟨_, _, hhold⟩ := hheld.1 h
    rw [hdrop] at hhold
    cases hhold

/-- Settles O31: the wait states are those of the parser, and as many steps as there are bytes reach
one. -/
theorem rxStepProgressesOrWaits : Obligations.RxStepProgressesOrWaits := by
  intro s
  have hlength := s.unconsumed_length
  have hwaits := waits_iff s.unconsumed
  rw [hlength] at hwaits
  constructor
  case left =>
    obtain ⟨t, hstep, ⟨_, hbytes, _⟩, hsame⟩ := exec_rxStep_parse s
    have hcount := State.rxCount_of_unconsumed hbytes
    have hshrinks := waits_or_shrinks s.unconsumed
    have hchanged : t ≠ s → t.rxCount.toNat < s.rxCount.toNat := fun hne => by
      rw [hcount, ← hlength]
      exact hshrinks.resolve_left (mt hsame hne)
    have hiff : t = s ↔ Waits s.unconsumed := by
      refine ⟨fun h => hshrinks.resolve_right fun hless => ?_, hsame⟩
      rw [← hbytes, h] at hless
      exact lt_irrefl _ hless
    refine ⟨t, hstep, hiff.trans hwaits, hchanged, fun hfull => ?_⟩
    have hne : t ≠ s := fun h => by
      have := hwaits.1 (hiff.1 h)
      omega
    exact hfull ▸ hchanged hne
  case right =>
    obtain ⟨t, hrun, ⟨_, hbytes, _⟩, _⟩ :=
      execAll_rxRun (isRx_of_mem_steps (s.rxCount.toNat + 1)) (neverFull_steps _ s)
    obtain ⟨u, hstep, _, hsame⟩ := exec_rxStep_parse t
    have hrest : Waits t.unconsumed := hbytes ▸ waits_after_steps (by omega)
    exact ⟨t, hrun, hstep.trans (congrArg _ (hsame hrest))⟩

/-- Settles O32: `RX_STEP` is the parser's step, whose one argument is the unconsumed bytes. -/
theorem rxStepSeesOnlyUnconsumedBytes : Obligations.RxStepSeesOnlyUnconsumedBytes := by
  intro s s' t t' hsame h h'
  obtain ⟨u, hstep, ⟨hevents, hbytes, _⟩, _⟩ := exec_rxStep_parse s
  obtain ⟨u', hstep', ⟨hevents', hbytes', _⟩, _⟩ := exec_rxStep_parse s'
  cases hstep.symm.trans h
  cases hstep'.symm.trans h'
  rw [← hsame] at hevents' hbytes'
  exact ⟨hbytes.trans hbytes'.symm, _, hevents, hevents'⟩

/-- Settles O33: the parser's steps reach the frame, and the machine runs the parser. -/
theorem resynchronizationReachesTheValidFrame :
    Obligations.ResynchronizationReachesTheValidFrame := by
  intro s x p y c0 c1 hs hp hck
  have hw : (c0 :: c1 :: p).length = 14 := congrArg (· + 2) hp
  have hvalid := (frameValid_cons_iff hp 0xFF#8 c0 c1).2 hck
  obtain ⟨n, x', hn, hrest, e, rest, hparse, hcode, hlow, hhigh, hframe⟩ :=
    steps_reach_valid hw hvalid y x.length x le_rfl
  obtain ⟨u, hrun, ⟨_, hbytes, hport⟩, _⟩ :=
    execAll_rxRun (isRx_of_mem_steps n) (neverFull_steps n s)
  obtain ⟨t, hstep, ⟨hevents, hleft, _⟩, _⟩ := exec_rxStep_parse u
  have hu : u.unconsumed = x' ++ 0xFF#8 :: (c0 :: c1 :: p ++ y) := by
    rw [hbytes, hs]
    exact hrest
  rw [hu, hparse] at hevents hleft
  rw [frameOkEvent_cons hp] at hframe
  refine ⟨n, u, t, e, hn, hrun, hstep, ?_, hport ▸ hevents, hcode, hleft ▸ hlow, hleft ▸ hhigh,
    hleft ▸ hframe⟩
  rw [hu]
  simp [hp]
  omega

/-- Settles O34: the parser reports the split frame once, from an empty ring. -/
theorem splitFrameIsDeliveredOnce : Obligations.SplitFrameIsDeliveredOnce := by
  intro s p c0 c1 n hs hp hck f
  have hw : (c0 :: c1 :: p).length = 14 := congrArg (· + 2) hp
  have hparse := rxRun_split_frame hw ((frameValid_cons_iff hp 0xFF#8 c0 c1).2 hck) n
  rw [frameOkEvent_cons hp] at hparse
  have hrx : ∀ i ∈ (f.take n).map Instr.rxByte ++ [.rxStep] ++ (f.drop n).map .rxByte ++ [.rxStep],
      IsRx i := by
    simp only [List.forall_mem_append]
    exact ⟨⟨⟨isRx_of_mem_bytes _, isRx_of_mem_steps 1⟩, isRx_of_mem_bytes _⟩, isRx_of_mem_steps 1⟩
  have hlink : linkBytes ((f.take n).map .rxByte ++ [.rxStep] ++ (f.drop n).map .rxByte ++
      [.rxStep]) = f := by
    simp only [linkBytes_append, linkBytes_bytes]
    simp [linkBytes]
  have hlen : f.length ≤ 256 := by
    simp [f, hp]
  obtain ⟨t, hrun, hevents, hbytes, _⟩ := execAll_rxRun_of_empty hrx hs (hlink.symm ▸ hlen)
  rw [hparse] at hevents hbytes
  exact ⟨t, hrun, hbytes, hevents⟩

/-- Settles O35: both runs have reported what draining all their bytes at once reports. -/
theorem divisionAmongStepsDoesNotMatter : Obligations.DivisionAmongStepsDoesNotMatter := by
  intro s l l' hs hrx hlink hfull hfull'
  obtain ⟨hl, hl'⟩ := List.forall_mem_append.1 hrx
  have hdrains : ∀ {k : List Instr}, (∀ i ∈ k, IsRx i) → NeverFull k s →
      ∃ t, execAll (k ++ List.replicate 257 .rxStep) s = .next t ∧
        t.events = s.events ++ tagged s.cmdPort (drain (s.unconsumed ++ linkBytes k)) := by
    intro k hk hnever
    obtain ⟨u, _, ⟨_, hbytes, _⟩, hbound⟩ := execAll_rxRun hk hnever
    have hlen : (rxRun k s.unconsumed).2.length ≤ 257 := by
      rw [← hbytes, u.unconsumed_length]
      exact (hbound hs).trans (Nat.le_succ 256)
    have hsteps := List.forall_mem_append.2 ⟨hk, isRx_of_mem_steps 257⟩
    obtain ⟨t, hrun, ⟨hevents, _⟩, _⟩ := execAll_rxRun hsteps (hnever.append_steps 257)
    rw [rxRun_append_steps hk hlen] at hevents
    exact ⟨t, hrun, hevents⟩
  obtain ⟨t, hrun, hevents⟩ := hdrains hl hfull
  obtain ⟨t', hrun', hevents'⟩ := hdrains hl' hfull'
  exact ⟨t, t', hrun, hrun', by rw [hevents, hevents', hlink]⟩

/-- Settles O39: the 11 bytes of an outbound frame start with a SOF and are too few for a
candidate. -/
theorem ownReceiverWaitsOnAnOutboundFrame : Obligations.OwnReceiverWaitsOnAnOutboundFrame := by
  intro s len data n hs
  obtain ⟨bytes, w, rfl, hw, hsend⟩ : ∃ bytes w, bytes = 0xFF#8 :: w ∧ w.length = 10 ∧
      exec (.txSend len data) s =
        .next { s with events := s.events ++ [⟨s.cmdPort, .txFrame bytes⟩] } :=
    ⟨_, _, rfl, by simp, exec_txSend len data s⟩
  have hlen : (0xFF#8 :: w).length = 11 := congrArg (· + 1) hw
  have hwaits : Waits (0xFF#8 :: w) := (waits_iff _).2 (.inr ⟨rfl, by omega⟩)
  have hrx := List.forall_mem_append.2 ⟨isRx_of_mem_bytes (0xFF#8 :: w), isRx_of_mem_steps n⟩
  obtain ⟨t, hrun, hevents, hbytes, _⟩ := execAll_rxRun_of_empty hrx hs (by
    rw [linkBytes_append, linkBytes_bytes, linkBytes_steps, List.append_nil]
    omega)
  simp only [rxRun_append, rxRun_bytes, List.nil_append, rxRun_of_waits hwaits] at hevents hbytes
  exact ⟨_, t, hsend, hrun, hevents.trans (List.append_nil _), hbytes⟩

end Sys2Proof.Machine
end

section
/-! PROOFS. Walks through a word: the fields of a walk put the word back together, and a walk past
bit 64 overflows once and is then aborted (R153, R156 to R158). -/

namespace Sys2Proof.Machine

/-! ### The reports of the fields that fit -/

/-- One report per field (R156). -/
@[simp] theorem fieldReports_length (w : BitVec 64) (c : BitVec 7) (lens : List (BitVec 8)) :
    (fieldReports w c lens).length = lens.length := by
  induction lens generalizing c with
  | nil => rfl
  | cons len rest ih => exact congrArg (· + 1) (ih _)

/-- Each report is a value of its field's length (R156). -/
@[simp] theorem valueLengths_fieldReports (w : BitVec 64) (c : BitVec 7) (lens : List (BitVec 8)) :
    valueLengths (fieldReports w c lens) = lens := by
  induction lens generalizing c with
  | nil => rfl
  | cons len rest ih => exact congrArg (len :: ·) (ih _)

section
variable (w : BitVec 64) {c : BitVec 7} {lens : List (BitVec 8)}
  (hlens : ∀ len ∈ lens, len.toNat ≤ 32) (hfits : c.toNat + (lens.map BitVec.toNat).sum ≤ 64)
include hlens hfits

/-- The fields of a walk put together are the bits of the word that it walked over (R158(b)). -/
theorem reassembled_fieldReports :
    reassembled (fieldReports w c lens) =
      2 ^ c.toNat * (w.toNat / 2 ^ c.toNat % 2 ^ (lens.map BitVec.toNat).sum) := by
  induction lens generalizing c with
  | nil => simp [fieldReports, reassembled, Nat.mod_one]
  | cons len rest ih =>
    obtain ⟨hlen, hrest⟩ := List.forall_mem_cons.1 hlens
    rw [List.map_cons, List.sum_cons] at hfits ⊢
    have hcur := cursor_toNat (n := c.toNat + len.toNat) (by omega)
    rw [fieldReports, reassembled, ih hrest (by rw [hcur]; omega), hcur, fxField_toNat w hlen,
      Nat.shiftLeft_eq, Nat.pow_add, Nat.pow_add, Nat.mod_mul, Nat.div_div_eq_div_mul]
    ring

/-- The `k`-th field of a walk starts where the earlier lengths end, and its value is the word's
bits there (R153, R156). -/
theorem fieldReports_getElem? {k : Nat} {l : BitVec 8} (hk : lens[k]? = some l) :
    ∃ (v : BitVec 32) (ck : BitVec 7), (fieldReports w c lens)[k]? = some (.fxValue v l ck) ∧
      ck.toNat = c.toNat + ((lens.take k).map BitVec.toNat).sum ∧
      v.toNat = w.toNat / 2 ^ ck.toNat % 2 ^ l.toNat := by
  induction lens generalizing c k with
  | nil => cases hk
  | cons len rest ih =>
    obtain ⟨hlen, hrest⟩ := List.forall_mem_cons.1 hlens
    rw [List.map_cons, List.sum_cons] at hfits
    cases k with
    | zero =>
      cases hk
      exact ⟨_, c, rfl, rfl, fxField_toNat w hlen⟩
    | succ k =>
      have hcur := cursor_toNat (n := c.toNat + len.toNat) (by omega)
      obtain ⟨v, ck, hreport, hck, hv⟩ := ih hrest (by rw [hcur]; omega) hk
      refine ⟨v, ck, hreport, ?_, hv⟩
      rw [hck, hcur, List.take_succ_cons, List.map_cons, List.sum_cons, Nat.add_assoc]

end

/-! ### A walk that runs past the word -/

/-- A run that completes goes on from where it ended (R60). -/
theorem execAll_append_of_next {l : List Instr} {s t : State} (h : execAll l s = .next t)
    (l' : List Instr) : execAll (l ++ l') s = execAll l' t := by
  induction l generalizing s with
  | nil =>
    cases h
    rfl
  | cons i rest ih =>
    obtain ⟨u, hu⟩ := exec_completes i s
    rw [execAll_cons_of_next hu] at h
    rw [List.cons_append, execAll_cons_of_next hu, ih h]

/-- The first field past bit 64 reports OVERFLOW and aborts the walk (R157). -/
theorem exec_fxTake_of_overflow {len : BitVec 8} {s : State} (habort : s.fxAbort = false)
    (hlen : len.toNat ≤ 32) (hpast : 64 < s.fxCur.toNat + len.toNat) :
    exec (.fxTake len) s = .next (s.setFxAbort.emit (.fxError .overflow len s.fxCur)) := by
  rw [exec_fxTake, if_neg (ne_true_of_eq_false habort), if_neg (Nat.not_lt.2 hlen), if_pos hpast]

/-- Every field of an aborted walk reports ABORTED (R156, R157). -/
theorem execAll_fxTake_of_aborted {s : State} (habort : s.fxAbort = true) (lens : List (BitVec 8)) :
    execAll (lens.map .fxTake) s =
      .next (s.emitAll (lens.map fun l => .fxError .aborted l s.fxCur)) := by
  induction lens generalizing s with
  | nil => exact congrArg _ s.emitAll_nil.symm
  | cons len rest ih =>
    have habort' : (s.emit (.fxError .aborted len s.fxCur)).fxAbort = true := habort
    rw [List.map_cons, execAll_cons_of_next (exec_fxTake_of_aborted len habort), ih habort']
    simp [State.emitAll, State.emit]

/-- A walk at the end of the word reports OVERFLOW once and ABORTED from there on (R157). -/
theorem execAll_fxTake_past_end {len : BitVec 8} {s : State} (habort : s.fxAbort = false)
    (hlen : len.toNat ≤ 32) (hpast : 64 < s.fxCur.toNat + len.toNat) (after : List (BitVec 8)) :
    execAll (.fxTake len :: after.map .fxTake) s =
      .next (s.setFxAbort.emitAll
        (.fxError .overflow len s.fxCur :: after.map fun l => .fxError .aborted l s.fxCur)) := by
  rw [execAll_cons_of_next (exec_fxTake_of_overflow habort hlen hpast),
    execAll_fxTake_of_aborted rfl]
  simp [State.emitAll, State.emit]

/-! ### The obligations -/

/-- Settles O42: the walk's fields all fit, and they cover all 64 bits. -/
theorem walkOfSixtyFourBitsReassemblesTheWord :
    Obligations.WalkOfSixtyFourBitsReassemblesTheWord := by
  intro s data lens hlens hsum
  have hword := reassembled_fieldReports data (c := 0#7) hlens (by simp [hsum])
  refine ⟨_, _, execAll_walk_of_fits s data hlens hsum.le, ?_, rfl, rfl, fieldReports_length ..,
    valueLengths_fieldReports .., ?_⟩
  · rw [hsum]
  · rw [hword, hsum]
    simpa using data.isLt

/-- Settles O43: the fields before fit, the next one overflows, and the walk stays aborted. -/
theorem walkPastTheEndOverflowsOnceThenAborts :
    Obligations.WalkPastTheEndOverflowsOnceThenAborts := by
  intro s data before after len hbefore hlen hfits hpast
  have hwalk := execAll_walk_of_fits s data hbefore hfits
  have hcur := cursor_toNat hfits
  have hsplit : Instr.fxLoad data :: (before ++ len :: after).map .fxTake =
      (.fxLoad data :: before.map .fxTake) ++ (.fxTake len :: after.map .fxTake) := by
    simp
  rw [hsplit, execAll_append_of_next hwalk]
  refine ⟨_, fieldReports data 0#7 before, _,
    execAll_fxTake_past_end rfl hlen (hcur.symm ▸ hpast) after, hcur, rfl, rfl, rfl,
    fun k l hk => ?fields, valueLengths_fieldReports .., fieldReports_length .., ?events⟩
  case fields =>
    simpa using fieldReports_getElem? data hbefore (c := 0#7) (by simpa using hfits) hk
  case events => simp [State.emitAll, State.setFxAbort, tagged]

end Sys2Proof.Machine
end

section
/-! PROOFS. Slots over several commands: the countdown of one slot under ticks, the race of a kick
and a tick, and the seeding of the table (R88, R172, R175, R178, R180, R181, R236). -/

namespace Sys2Proof.Machine

/-! ### Alerts of one slot -/

/-- The alerts of slot `j` in two lists of reports. -/
theorem alertCount_append (j : Nat) (a b : List EventBody) :
    alertCount j (a ++ b) = alertCount j a + alertCount j b := by
  induction a with
  | nil => exact (Nat.zero_add _).symm
  | cons body rest ih =>
    cases body with
    | tmrAlert => exact (congrArg (_ + ·) ih).trans (Nat.add_assoc ..).symm
    | _ => exact ih

/-- Slots numbered above `j` report no alert of slot `j`. -/
theorem alertCount_tickAlerts_of_lt (p : Params) {i j : Nat} {slots : List Slot} (hj : j < i)
    (hbound : i + slots.length ≤ 256) : alertCount j (tickAlerts p i slots) = 0 := by
  induction slots generalizing i with
  | nil => rfl
  | cons sl rest ih =>
    rw [List.length_cons] at hbound
    have hrest := ih (i := i + 1) (by omega) (by omega)
    have hi : (BitVec.ofNat 8 i).toNat = i := Nat.mod_eq_of_lt (by omega)
    rw [tickAlerts]
    split
    · rw [alertCount, hrest, hi, if_neg hj.ne']
    · exact hrest

/-- A tick reports one alert of slot `j` when it finds that slot overdue, and none otherwise
(R178). -/
theorem alertCount_tickAlerts (p : Params) {i j : Nat} {slots : List Slot} {sl : Slot}
    (hsl : slots[j]? = some sl) (hbound : i + slots.length ≤ 256) :
    alertCount (i + j) (tickAlerts p i slots) = if sl.alerts p then 1 else 0 := by
  induction slots generalizing i j with
  | nil => cases hsl
  | cons first rest ih =>
    rw [List.length_cons] at hbound
    have hi : (BitVec.ofNat 8 i).toNat = i := Nat.mod_eq_of_lt (by omega)
    cases j with
    | zero =>
      cases hsl
      have hrest := alertCount_tickAlerts_of_lt p (i := i + 1) (slots := rest) (Nat.lt_succ_self i)
        (by omega)
      rw [Nat.add_zero, tickAlerts]
      split
      · rw [alertCount, hrest, hi, if_pos rfl]
      · exact hrest
    | succ j =>
      have hrest := ih (i := i + 1) hsl (by omega)
      rw [Nat.add_right_comm, Nat.add_assoc] at hrest
      rw [tickAlerts]
      split
      · rw [alertCount, hi, if_neg (by omega), Nat.zero_add, hrest]
      · exact hrest

/-! ### One slot under ticks (R178, R180) -/

/-- Slot `j` of a table that R7 allows is active and is `sl`. -/
structure ActiveSlot (s : State) (j : Nat) (sl : Slot) : Prop where
  valid : s.params.valid = true
  count : s.slots.length ≤ 256
  slot : s.slots[j]? = some sl
  active : sl.active = true

/-- Commands leave slot `j` with its remaining time `r`, after `n` alerts of it. -/
def Ticked (s t : State) (j : Nat) (sl : Slot) (r : BitVec 32) (n : Nat) : Prop :=
  (∃ bodies, t.events = s.events ++ tagged s.cmdPort bodies ∧ alertCount j bodies = n) ∧
    t.slots[j]? = some { sl with rem := r } ∧ t.cmdPort = s.cmdPort ∧ t.params = s.params ∧
    t.slots.length = s.slots.length

/-- An active slot of a state with the invariant. -/
theorem State.Inv.activeSlot {s : State} (h : s.Inv) {j : Nat} {sl : Slot}
    (hsl : s.slots[j]? = some sl) (hactive : sl.active = true) : ActiveSlot s j sl := by
  obtain ⟨_, _, _, _, _, hnt⟩ := (Params.valid_iff s.params).1 h.paramsValid
  exact ⟨h.paramsValid, h.slotCount ▸ hnt, hsl, hactive⟩

/-- A tick counts an active slot down, or alerts and reloads it when it is overdue (R178). -/
theorem exec_tmrTick_slot {s : State} {j : Nat} {sl : Slot} (h : ActiveSlot s j sl) :
    ∃ t r, exec .tmrTick s = .next t ∧
      if sl.rem.toInt - s.params.tickMs < -(s.params.overdueMs : Int)
      then Ticked s t j sl r 1 ∧ r.toInt = max sl.tmo.toInt (s.params.backoffMinMs : Int)
      else Ticked s t j sl r 0 ∧ r.toInt = sl.rem.toInt - s.params.tickMs := by
  obtain ⟨r, htick, hr⟩ := Slot.tick_of_active h.valid h.active
  have hslot : (s.slots.map (Slot.tick s.params))[j]? = some { sl with rem := r } := by
    rw [List.getElem?_map, h.slot, Option.map_some, htick]
  have halerts := alertCount_tickAlerts s.params (i := 0) h.slot (by simpa using h.count)
  rw [Nat.zero_add] at halerts
  have hiff := Slot.alerts_iff s.params sl
  rw [and_iff_right h.active] at hiff
  refine ⟨_, r, exec_tmrTick s, ?_⟩
  split_ifs at hr ⊢ with hoverdue
  · rw [if_pos (hiff.2 hoverdue)] at halerts
    exact ⟨⟨⟨_, rfl, halerts⟩, hslot, rfl, rfl, List.length_map _⟩, hr⟩
  · rw [if_neg (mt hiff.1 hoverdue)] at halerts
    exact ⟨⟨⟨_, rfl, halerts⟩, hslot, rfl, rfl, List.length_map _⟩, hr⟩

/-- What is left of an active slot is an active slot. -/
theorem Ticked.activeSlot {s t : State} {j : Nat} {sl : Slot} {r : BitVec 32} {n : Nat}
    (h : Ticked s t j sl r n) (hs : ActiveSlot s j sl) : ActiveSlot t j { sl with rem := r } := by
  obtain ⟨_, hslot, _, hparams, hlength⟩ := h
  exact ⟨hparams ▸ hs.valid, hlength ▸ hs.count, hslot, hs.active⟩

/-- Alerts add up over two runs. -/
theorem Ticked.trans {s u t : State} {j : Nat} {sl : Slot} {r r' : BitVec 32} {n n' : Nat}
    (h : Ticked s u j sl r n) (h' : Ticked u t j { sl with rem := r } r' n') :
    Ticked s t j sl r' (n + n') := by
  obtain ⟨⟨bodies, hevents, hcount⟩, _, hport, hparams, hlength⟩ := h
  obtain ⟨⟨bodies', hevents', hcount'⟩, hslot', hport', hparams', hlength'⟩ := h'
  refine ⟨⟨bodies ++ bodies', ?_, ?_⟩, hslot', hport'.trans hport, hparams'.trans hparams,
    hlength'.trans hlength⟩
  · rw [hevents', hevents, hport, tagged_append, List.append_assoc]
  · rw [alertCount_append, hcount, hcount']

/-- As long as the remaining time does not fall below `-OVERDUE_MS`, ticks count an active slot down
without an alert (R180). -/
theorem execAll_ticks {k : Nat} {s : State} {j : Nat} {sl : Slot} (h : ActiveSlot s j sl)
    (hdue : -(s.params.overdueMs : Int) ≤ sl.rem.toInt - k * s.params.tickMs) :
    ∃ t r, execAll (List.replicate k .tmrTick) s = .next t ∧ Ticked s t j sl r 0 ∧
      r.toInt = sl.rem.toInt - k * s.params.tickMs := by
  induction k generalizing s sl with
  | zero =>
    refine ⟨s, sl.rem, rfl, ⟨⟨[], (List.append_nil _).symm, rfl⟩, h.slot, rfl, rfl, rfl⟩, ?_⟩
    simp
  | succ k ih =>
    obtain ⟨u, r, hstep, htick⟩ := exec_tmrTick_slot h
    have hmul : ((k + 1 : Nat) : Int) * s.params.tickMs =
        k * s.params.tickMs + s.params.tickMs := by
      push_cast
      ring
    have hpos : 0 ≤ (k : Int) * s.params.tickMs := by positivity
    rw [if_neg (by omega)] at htick
    obtain ⟨hticked, hr⟩ := htick
    obtain ⟨_, _, _, hparams, _⟩ := id hticked
    have hdue' : -(u.params.overdueMs : Int) ≤ r.toInt - k * u.params.tickMs := by
      rw [hparams]
      omega
    obtain ⟨t, r', hrun, hticked', hr'⟩ := ih (hticked.activeSlot h) hdue'
    refine ⟨t, r', (execAll_cons_of_next hstep _).trans hrun, hticked.trans hticked', ?_⟩
    rw [hr', hparams]
    change r.toInt - _ = _
    omega

/-! ### The tick number of the alert (R180) -/

/-- Before tick `N(V)` the remaining time stays at or above `-OVERDUE_MS`. -/
theorem due_iff_lt_alertTick {p : Params} (hp : p.valid = true) {v : Int}
    (hv : -(p.overdueMs : Int) ≤ v) (k : Nat) :
    k < alertTick p v ↔ -(p.overdueMs : Int) ≤ v - k * p.tickMs := by
  obtain ⟨htick, _⟩ := (Params.valid_iff p).1 hp
  have hpos : (0 : Int) < p.tickMs := by omega
  have hquot : 0 ≤ (v + p.overdueMs) / p.tickMs := Int.ediv_nonneg (by omega) hpos.le
  have hle := Int.le_ediv_iff_mul_le (a := k) (b := v + p.overdueMs) hpos
  have hlt : k < alertTick p v ↔ (k : Int) ≤ (v + p.overdueMs) / p.tickMs := by
    rw [alertTick]
    omega
  rw [hlt, hle]
  omega

/-! ### Seeding (R88, R236) -/

/-- A seed writes its entries into consecutive slots and nothing else (R88). -/
theorem execAll_seedFrom {entries : List (BitVec 7 × BitVec 8 × BitVec 32)} {i : Nat} {s : State}
    (hcount : s.slots.length = s.params.nt) (hnt : s.params.nt ≤ 256)
    (hfits : i + entries.length ≤ s.params.nt) :
    ∃ t, execAll (seedFrom i entries) s = .next t ∧ t = { s with slots := t.slots } ∧
      t.slots.length = s.slots.length ∧
      (∀ (j : Nat) (node : BitVec 7) (fidx : BitVec 8) (tmo : BitVec 32),
        entries[j]? = some (node, fidx, tmo) →
        t.slots[i + j]? = some ⟨true, node, fidx, tmo, tmo⟩) ∧
      ∀ j, j < i ∨ i + entries.length ≤ j → t.slots[j]? = s.slots[j]? := by
  induction entries generalizing i s with
  | nil => exact ⟨s, rfl, rfl, rfl, fun _ _ _ _ h => (nomatch h), fun _ _ => rfl⟩
  | cons entry rest ih =>
    obtain ⟨node, fidx, tmo⟩ := entry
    rw [List.length_cons] at hfits
    have hi : (BitVec.ofNat 8 i).toNat = i := Nat.mod_eq_of_lt (by omega)
    have hstep := exec_tmrConfig_of_lt (slot := BitVec.ofNat 8 i) (s := s) (by omega) node fidx tmo
    rw [hi] at hstep
    obtain ⟨t, hrun, hframe, hlength, hslots, hothers⟩ :=
      ih (i := i + 1) (s := s.setSlots (s.slots.set i ⟨true, node, fidx, tmo, tmo⟩))
        (List.length_set.trans hcount) hnt (by
          change i + 1 + rest.length ≤ s.params.nt
          omega)
    refine ⟨t, (execAll_cons_of_next hstep _).trans hrun, hframe, hlength.trans List.length_set,
      fun j node' fidx' tmo' hentry => ?_, fun j hj => ?_⟩
    · cases j with
      | zero =>
        cases hentry
        rw [hothers _ (.inl (by omega))]
        exact List.getElem?_set_self (by omega)
      | succ j =>
        rw [← hslots j node' fidx' tmo' hentry, Nat.add_right_comm, Nat.add_assoc]
    · rw [List.length_cons] at hj
      rw [hothers j (by omega)]
      exact List.getElem?_set_ne (by omega)

/-! ### The obligations -/

/-- Settles O48: `N(V)` is the first tick that leaves the slot overdue; the ticks before it count
down. -/
theorem slotAlertsOnTickNOfV : Obligations.SlotAlertsOnTickNOfV := by
  refine ⟨by decide, by decide, fun s j sl hinv hsl hactive => ?_⟩
  have hslot := hinv.activeSlot hsl hactive
  obtain ⟨hlow, _⟩ := hinv.slotRange sl (List.mem_of_getElem? hsl) hactive
  have hdue := due_iff_lt_alertTick hinv.paramsValid hlow
  intro n
  constructor
  case left =>
    intro k hk
    obtain ⟨t, r, hrun, ⟨⟨bodies, hevents, hcount⟩, hleft, _⟩, hr⟩ :=
      execAll_ticks hslot ((hdue k).1 hk)
    exact ⟨t, bodies, r, hrun, hevents, hcount, hleft, hr⟩
  case right =>
    have hzero := (hdue 0).2 (by simpa using hlow)
    obtain ⟨m, hm⟩ : ∃ m, n = m + 1 := ⟨n - 1, (Nat.succ_pred_eq_of_pos hzero).symm⟩
    obtain ⟨u, r, hrun, hticked, hr⟩ := execAll_ticks hslot ((hdue m).1 (by omega))
    have hover := (hdue n).not.1 (lt_irrefl n)
    obtain ⟨_, _, _, hparams, _⟩ := id hticked
    obtain ⟨t, r', hstep, htick⟩ := exec_tmrTick_slot (hticked.activeSlot hslot)
    have hmul : (n : Int) * s.params.tickMs = m * s.params.tickMs + s.params.tickMs := by
      rw [hm]
      push_cast
      ring
    rw [hparams, if_pos (by change r.toInt - _ < _; omega)] at htick
    obtain ⟨hlast, hr'⟩ := htick
    obtain ⟨⟨bodies, hevents, hcount⟩, hleft, _⟩ := hticked.trans hlast
    refine ⟨t, bodies, r', ?_, hevents, hcount, hleft, hr'⟩
    rw [hm, List.replicate_succ', execAll_append_of_next hrun, execAll_singleton, hstep]

/-- Settles O49: the kick leaves the slot's timeout, from which the tick counts down; after a tick
the kick restores it. -/
theorem kickAndTickRaceHasTwoOutcomes : Obligations.KickAndTickRaceHasTwoOutcomes := by
  intro s j sl hinv hsl hactive
  have hslot := hinv.activeSlot hsl hactive
  have hkicked {rem : BitVec 32} :
      ({ sl with rem := rem } : Slot).kick sl.node sl.fidx = { sl with rem := sl.tmo } := by
    obtain ⟨hvalid, hpos⟩ := sl.active_iff.1 hactive
    rw [Slot.kick_eq_ite, if_pos ⟨hvalid, hpos, rfl, rfl⟩]
  constructor
  case left =>
    have hkick := exec_tmrKick sl.node sl.fidx s
    have hloaded : ActiveSlot { s with slots := s.slots.map (Slot.kick sl.node sl.fidx) } j
        { sl with rem := sl.tmo } := by
      refine ⟨hslot.valid, (List.length_map _).trans_le hslot.count, ?_, hactive⟩
      rw [List.getElem?_map, hsl, Option.map_some]
      exact congrArg some (hkicked (rem := sl.rem))
    obtain ⟨t, r, hstep, htick⟩ := exec_tmrTick_slot hloaded
    refine ⟨t, r, ?_, ?_⟩
    · rw [execAll_cons_of_next hkick, execAll_singleton, hstep]
    · have hoverdue : sl.tmo.toInt - s.params.tickMs < -(s.params.overdueMs : Int) ↔
          sl.tmo.toInt < s.params.tickMs - s.params.overdueMs := by omega
      simp only [hoverdue] at htick
      split_ifs at htick ⊢
      all_goals
        obtain ⟨⟨_, hleft, _⟩, hr⟩ := htick
        exact ⟨hleft, hr⟩
  case right =>
    obtain ⟨u, r, hstep, htick⟩ := exec_tmrTick_slot hslot
    have hleft : u.slots[j]? = some { sl with rem := r } := by
      split_ifs at htick
      all_goals
        obtain ⟨⟨_, hleft, _⟩, _⟩ := htick
        exact hleft
    refine ⟨_, (execAll_cons_of_next hstep _).trans
      ((execAll_singleton _ u).trans (exec_tmrKick sl.node sl.fidx u)), ?_⟩
    rw [List.getElem?_map, hleft, Option.map_some, hkicked]

/-- Settles O50: the expansion's condition, and the run of its commands from slot 0. -/
theorem seedConfiguresTheFirstSlotsInOrder : Obligations.SeedConfiguresTheFirstSlotsInOrder := by
  intro s entries hcount hnt
  constructor
  case left => exact fun hmany => if_neg (Nat.not_le.2 hmany)
  case right =>
    intro hfits
    obtain ⟨t, hrun, hframe, hlength, hslots, hothers⟩ :=
      execAll_seedFrom (i := 0) hcount hnt ((Nat.zero_add _).trans_le hfits)
    refine ⟨_, t, if_pos hfits, hrun, hframe, hlength, fun j node fidx tmo hentry => ?_,
      fun j hj => hothers j (.inr (by omega))⟩
    have hseeded := hslots j node fidx tmo hentry
    rwa [Nat.zero_add] at hseeded

end Sys2Proof.Machine
end

section
/-! PROOFS. The assembler, form by form: how many operands a mnemonic takes, which operands it
accepts and what they assemble to (R87). -/

namespace Sys2Proof.Machine

/-! ### The forms -/

/-- How many operands a mnemonic takes (R87). -/
def operandCount : Opcode → Nat
  | .nop | .rxStep | .rxError | .tmrTick => 0
  | .rxByte | .idDecode | .fxLoad | .fxTake => 1
  | .txSend | .tmrKick => 2
  | .tmrConfig => 4

/-- Only the right number of operands assembles (R87; log entry 15). -/
theorem length_of_assemble {op : Opcode} {os : List AsmOperand} {i : Instr}
    (h : assemble op os = some i) : os.length = operandCount op := by
  unfold assemble at h
  split at h
  case h_12 => cases h -- the catch-all arm of `assemble`
  all_goals rfl

/-- The operands that write out a command's own operands (R87). -/
def operandsOf : Instr → List AsmOperand
  | .nop | .rxStep | .rxError | .tmrTick => []
  | .rxByte b => [⟨false, b.toNat⟩]
  | .txSend len data => [⟨false, len.toNat⟩, ⟨false, data.toNat⟩]
  | .idDecode id => [⟨false, id.toNat⟩]
  | .fxLoad data => [⟨false, data.toNat⟩]
  | .fxTake len => [⟨false, len.toNat⟩]
  | .tmrConfig slot node fidx tmo =>
    [⟨false, slot.toNat⟩, ⟨false, node.toNat⟩, ⟨false, fidx.toNat⟩,
      ⟨decide (tmo.toInt < 0), tmo.toInt.natAbs⟩]
  | .tmrKick node fidx => [⟨false, node.toNat⟩, ⟨false, fidx.toNat⟩]

/-- A signed value is assembled from its sign and magnitude (R87). -/
theorem asmTmo_toInt (v : BitVec 32) :
    asmTmo ⟨decide (v.toInt < 0), v.toInt.natAbs⟩ = some v := by
  rw [asmTmo_eq_some]
  simp only [decide_eq_true_eq]
  split_ifs <;> omega

/-- Every command is assembled from its operands written out (R87). -/
theorem assemble_operandsOf (i : Instr) : assemble i.opcode (operandsOf i) = some i := by
  cases i <;> simp [Instr.opcode, operandsOf, assemble, asmUnsigned_toNat, asmTmo_toInt]

/-! ### Which operands assemble to what -/

section
variable {n m : Nat} {a b : AsmOperand} {i : Instr}

/-- One unsigned operand. -/
theorem asmUnsigned_map_eq_some {f : BitVec n → Instr} :
    (asmUnsigned n a).map f = some i ↔
      (a.negative = false ∧ a.magnitude < 2 ^ n) ∧ i = f (BitVec.ofNat n a.magnitude) := by
  simp only [Option.map_eq_some_iff, asmUnsigned_eq_some]
  constructor
  · rintro ⟨_, ⟨hrange, rfl⟩, rfl⟩
    exact ⟨hrange, rfl⟩
  · rintro ⟨hrange, rfl⟩
    exact ⟨_, ⟨hrange, rfl⟩, rfl⟩

/-- An unsigned operand and what follows it. -/
theorem asmUnsigned_bind_eq_some {f : BitVec n → Option Instr} :
    (asmUnsigned n a >>= f) = some i ↔
      (a.negative = false ∧ a.magnitude < 2 ^ n) ∧ f (BitVec.ofNat n a.magnitude) = some i := by
  simp only [Option.bind_eq_bind, Option.bind_eq_some_iff, asmUnsigned_eq_some]
  constructor
  · rintro ⟨_, ⟨hrange, rfl⟩, h⟩
    exact ⟨hrange, h⟩
  · rintro ⟨hrange, h⟩
    exact ⟨_, ⟨hrange, rfl⟩, h⟩

/-- The signed operand and what follows it. -/
theorem asmTmo_bind_eq_some {f : BitVec 32 → Instr} :
    (asmTmo a >>= fun v => some (f v)) = some i ↔
      ∃ v : BitVec 32,
        v.toInt = (if a.negative then -(a.magnitude : Int) else (a.magnitude : Int)) ∧ i = f v := by
  simp only [Option.bind_eq_bind, Option.bind_eq_some_iff, asmTmo_eq_some, Option.some_inj,
    eq_comm (b := i)]

end

/-- What is assembled has the mnemonic's opcode (R87). -/
theorem opcode_of_assemble {op : Opcode} {os : List AsmOperand} {i : Instr}
    (h : assemble op os = some i) : i.opcode = op := by
  have hlen := length_of_assemble h
  cases op with
  | nop | rxStep | rxError | tmrTick =>
    obtain rfl := List.length_eq_zero_iff.1 hlen
    cases h
    rfl
  | rxByte | idDecode | fxLoad | fxTake =>
    obtain ⟨a, rfl⟩ := List.length_eq_one_iff.1 hlen
    obtain ⟨_, rfl⟩ := asmUnsigned_map_eq_some.1 h
    rfl
  | txSend | tmrKick =>
    obtain ⟨a, b, rfl⟩ := List.length_eq_two.1 hlen
    obtain ⟨_, ha⟩ := asmUnsigned_bind_eq_some.1 h
    obtain ⟨_, hb⟩ := asmUnsigned_bind_eq_some.1 ha
    cases hb
    rfl
  | tmrConfig =>
    obtain ⟨a, b, c, d, rfl⟩ := List.length_eq_four.1 hlen
    obtain ⟨_, ha⟩ := asmUnsigned_bind_eq_some.1 h
    obtain ⟨_, hb⟩ := asmUnsigned_bind_eq_some.1 ha
    obtain ⟨_, hc⟩ := asmUnsigned_bind_eq_some.1 hb
    obtain ⟨_, _, rfl⟩ := asmTmo_bind_eq_some.1 hc
    rfl

/-! ### The obligation -/

/-- Settles O59: the written-out operands reach every command; the forms, operand by operand, say
which others assemble. -/
theorem assemblerReachesEveryCommandAndChecksRanges :
    Obligations.AssemblerReachesEveryCommandAndChecksRanges := by
  unfold Obligations.AssemblerReachesEveryCommandAndChecksRanges
  intro unsigned operandCounts
  have hcounts : ∀ row ∈ operandCounts, row.2 = operandCount row.1 := by decide
  refine ⟨fun i => ⟨_, assemble_operandsOf i⟩, fun _ _ _ => opcode_of_assemble, ?counts,
    ⟨rfl, rfl, rfl, rfl⟩, fun a b c d i => ⟨asmUnsigned_map_eq_some, ?txSend,
      asmUnsigned_map_eq_some, asmUnsigned_map_eq_some, asmUnsigned_map_eq_some, ?tmrConfig,
      ?tmrKick⟩⟩
  case counts =>
    intro row hrow os hlen
    refine Option.eq_none_iff_forall_ne_some.2 fun i h => hlen ?_
    rw [length_of_assemble h, hcounts row hrow]
  case txSend | tmrKick =>
    simp only [assemble, asmUnsigned_bind_eq_some, Option.some_inj, eq_comm (a := i)]
    exact Iff.rfl
  case tmrConfig =>
    simp only [assemble, asmUnsigned_bind_eq_some, asmTmo_bind_eq_some]
    exact Iff.rfl

end Sys2Proof.Machine
end
